-- ==== Sys2Proof/Word.lean ====
section
/-! DEFINITION. The word types of the hardware: bytes (registers, memory, operands; 10_state.md R16, R19, 20_memory.md R33)
and 9-bit values (the program counter and FAULT_INFO; 10_state.md R22, R27). -/

namespace Sys2Proof

/-- A byte, 0..255 unsigned (00_scope.md R7, R11). -/
abbrev Byte := BitVec 8

/-- A 9-bit value: the program counter, the address of an access before its bounds check, FAULT_INFO (R22, R27, R34). -/
abbrev Addr := BitVec 9

end Sys2Proof
end

