-- ==== Sys2Proof/Config.lean ====
section
/-! DEFINITION. The parameters of the hardware (00_scope.md R7, R8). No free value is needed: the spec leaves no point open. -/

namespace Sys2Proof

/-- The one parameter of the hardware, ENABLE_SUB_DIV (00_scope.md R8): whether opcodes 0xA1 and 0xA3 have handlers. -/
structure Config where
  enableSubDiv : Bool
  deriving DecidableEq, Repr

/-- The parameter's default, `true` (R8). The fixed name `step` runs this machine; `stepWith` takes either (log 4). -/
def Config.default : Config := { enableSubDiv := true }

/-- MEM_SIZE (R7): addresses 0..255. -/
abbrev Config.memSize : Nat := 256

/-- SP_INDEX (R7): register 7 is the stack pointer. -/
abbrev Config.spIndex : Fin 8 := 7

/-- SP_RESET (R7). -/
def Config.spReset : Byte := 0xF4

/-- PC_RESET (R7), the reset vector (R97). -/
def Config.pcReset : Addr := 0

end Sys2Proof
end

