-- ==== Sys2Proof/Syntax.lean ====
section
/-! DEFINITION. The instructions, one constructor per row of spec/opcode_table.json (30_encoding.md R49). -/

namespace Sys2Proof

/-- An instruction with its operand bytes (30_encoding.md R48). `a` is opA and `b` or `imm` is opB. A register operand is the
WHOLE byte: an index of 8 or more is a legal encoding, whose handler raises OutOfBounds (00_scope.md R14). -/
inductive Instr where
  | ldi (a imm : Byte)
  | prn (a : Byte)
  | hlt
  | mul (a b : Byte)
  | add (a b : Byte)
  | cmp (a b : Byte)
  | push (a : Byte)
  | pop (a : Byte)
  | call (a : Byte)
  | ret
  | jmp (a : Byte)
  | jeq (a : Byte)
  | jne (a : Byte)
  | sub (a b : Byte)
  | div (a b : Byte)
  deriving DecidableEq, Repr

end Sys2Proof
end

