-- ==== Sys2Proof/WellFormed.lean ====
section
/-! DEFINITION. Which instructions the hardware has, and which have their register operands in range. -/

namespace Sys2Proof

/-- Whether the opcode table has the instruction: SUB and DIV only under ENABLE_SUB_DIV (00_scope.md R8, 30_encoding.md R49). -/
def Instr.inTable (cfg : Config) : Instr → Bool
  | .sub _ _ => cfg.enableSubDiv
  | .div _ _ => cfg.enableSubDiv
  | .ldi _ _ => true
  | .prn _ => true
  | .hlt => true
  | .mul _ _ => true
  | .add _ _ => true
  | .cmp _ _ => true
  | .push _ => true
  | .pop _ => true
  | .call _ => true
  | .ret => true
  | .jmp _ => true
  | .jeq _ => true
  | .jne _ => true

/-- An instruction the hardware can decode. Nothing is asked of the operand bytes: every value of each is encodable
(30_encoding.md R52: an operand byte has no reserved bits). -/
abbrev Instr.WellFormed (cfg : Config) (i : Instr) : Prop := i.inTable cfg = true

/-- The operand bytes the handler uses as register indices, opA first (30_encoding.md R48, the order of R89). -/
def Instr.regOperands : Instr → List Byte
  | .ldi a _ => [a]
  | .prn a => [a]
  | .hlt => []
  | .mul a b => [a, b]
  | .add a b => [a, b]
  | .cmp a b => [a, b]
  | .push a => [a]
  | .pop a => [a]
  | .call a => [a]
  | .ret => []
  | .jmp a => [a]
  | .jeq a => [a]
  | .jne a => [a]
  | .sub a b => [a, b]
  | .div a b => [a, b]

/-- Every register operand names a register (00_scope.md R14): what an assembled instruction meets (30_encoding.md R58) and what an
instruction needs to complete. -/
abbrev Instr.RegsInRange (i : Instr) : Prop := ∀ r ∈ i.regOperands, r.toNat < 8

end Sys2Proof
end

