-- ==== Sys2Proof/Decode.lean ====
section
/-! DEFINITION. The decoder_dispatcher (30_encoding.md R46 to R53) and, after it, an encoder. Decoding is total on any bytes. -/

namespace Sys2Proof

/-- A handler identity (10_state.md R28, R29): one per row of the opcode table. -/
inductive Handler where
  | ldi | prn | hlt | mul | add | cmp | push | pop | call | ret | jmp | jeq | jne | sub | div
  deriving DecidableEq, Repr

/-- `n = ir[7:6]`, the operand count (R46, R47). -/
def operandCount (ir : Byte) : BitVec 2 := ir.extractLsb' 6 2

/-- `c = ir[4]`: the handler sets `pc` (R47). -/
def setsPc (ir : Byte) : Bool := ir.getLsbD 4

/-- `ir[3:0]`, the ALU operation select of an ALU opcode (R47, R53). -/
def aluSelect (ir : Byte) : BitVec 4 := ir.extractLsb' 0 4

/-- The opcode table (R49, R29): the handler of a byte, or none (R51). -/
def opcodeTable (cfg : Config) (ir : Byte) : Option Handler :=
  if ir = 0x82 then some .ldi
  else if ir = 0x47 then some .prn
  else if ir = 0x01 then some .hlt
  else if ir = 0xA2 then some .mul
  else if ir = 0xA0 then some .add
  else if ir = 0xA7 then some .cmp
  else if ir = 0x45 then some .push
  else if ir = 0x46 then some .pop
  else if ir = 0x50 then some .call
  else if ir = 0x11 then some .ret
  else if ir = 0x54 then some .jmp
  else if ir = 0x55 then some .jeq
  else if ir = 0x56 then some .jne
  else if ir = 0xA1 ∧ cfg.enableSubDiv then some .sub
  else if ir = 0xA3 ∧ cfg.enableSubDiv then some .div
  else none

/-- Whether a handler is one of the five that drive the ALU (R53). -/
def Handler.isAlu : Handler → Bool
  | .add => true
  | .sub => true
  | .mul => true
  | .div => true
  | .cmp => true
  | .ldi => false
  | .prn => false
  | .hlt => false
  | .push => false
  | .pop => false
  | .call => false
  | .ret => false
  | .jmp => false
  | .jeq => false
  | .jne => false

/-- The decoder's outputs (R53). `handler = none` is `illegal = 1`; `aluOp` is unused (none) for a handler that drives no ALU. -/
structure Decoded where
  n : BitVec 2
  c : Bool
  handler : Option Handler
  aluOp : Option (BitVec 4)
  deriving DecidableEq, Repr

/-- `Decode(ir)` (R53): a pure function of the byte and the parameter. -/
def decodeOpcode (cfg : Config) (ir : Byte) : Decoded :=
  let h := opcodeTable cfg ir
  { n := operandCount ir
    c := setsPc ir
    handler := h
    aluOp := if (h.map Handler.isAlu).getD false then some (aluSelect ir) else none }

/-- The instruction a handler and its operand bytes stand for (R48); bytes past the handler's operand count are not looked at. -/
def Handler.instr : Handler → (opA opB : Byte) → Instr
  | .ldi, a, b => .ldi a b
  | .prn, a, _ => .prn a
  | .hlt, _, _ => .hlt
  | .mul, a, b => .mul a b
  | .add, a, b => .add a b
  | .cmp, a, b => .cmp a b
  | .push, a, _ => .push a
  | .pop, a, _ => .pop a
  | .call, a, _ => .call a
  | .ret, _, _ => .ret
  | .jmp, a, _ => .jmp a
  | .jeq, a, _ => .jeq a
  | .jne, a, _ => .jne a
  | .sub, a, b => .sub a b
  | .div, a, b => .div a b

/-- Why bytes are no instruction. -/
inductive DecodeError where
  /-- The opcode byte has no handler (R51). -/
  | illegal (ir : Byte)
  /-- The bytes end before byte `k` of the instruction (k = 0 the opcode, 1 opA, 2 opB). -/
  | missing (k : Nat)
  deriving DecidableEq, Repr

/-- The instruction at the front of a list of bytes, and the bytes after it (R46): legality first, then exactly `n` operand bytes
(R54). A byte with `n = 3` has no handler (R51), so the last arm is `n = 2`. -/
def decode (cfg : Config) : List Byte → Except DecodeError (Instr × List Byte)
  | [] => .error (.missing 0)
  | ir :: rest =>
    match opcodeTable cfg ir with
    | none => .error (.illegal ir)
    | some h =>
      match (operandCount ir).toNat, rest with
      | 0, rest => .ok (h.instr 0 0, rest)
      | 1, a :: rest => .ok (h.instr a 0, rest)
      | _ + 2, a :: b :: rest => .ok (h.instr a b, rest)
      | _ + 1, [] => .error (.missing 1)
      | _ + 2, [_] => .error (.missing 2)

/-- The three bytes, lowest address first, of an opcode-table word of `nbits` bits: bit 0 is the least significant bit of the
first byte, and bits from `nbits` up are 0. -/
def tableBytes (nbits w : Nat) : List Byte :=
  let v := w % 2 ^ nbits
  [BitVec.ofNat 8 v, BitVec.ofNat 8 (v / 256), BitVec.ofNat 8 (v / 65536)]

/-- What the decoder reads from a word numbered as spec/opcode_table.json numbers it, for the default parameter. -/
def decodeTableWord (nbits w : Nat) : Option Instr :=
  match decode Config.default (tableBytes nbits w) with
  | .ok (i, _) => some i
  | .error _ => none

/-! ### The encoder, written from the same table of the spec (R49) -/

/-- The opcode byte of a handler (the byte column of R49). -/
def Handler.opcode : Handler → Byte
  | .ldi => 0b10000010
  | .prn => 0b01000111
  | .hlt => 0b00000001
  | .mul => 0b10100010
  | .add => 0b10100000
  | .cmp => 0b10100111
  | .push => 0b01000101
  | .pop => 0b01000110
  | .call => 0b01010000
  | .ret => 0b00010001
  | .jmp => 0b01010100
  | .jeq => 0b01010101
  | .jne => 0b01010110
  | .sub => 0b10100001
  | .div => 0b10100011

/-- The handler that runs an instruction. -/
def Instr.handler : Instr → Handler
  | .ldi _ _ => .ldi
  | .prn _ => .prn
  | .hlt => .hlt
  | .mul _ _ => .mul
  | .add _ _ => .add
  | .cmp _ _ => .cmp
  | .push _ => .push
  | .pop _ => .pop
  | .call _ => .call
  | .ret => .ret
  | .jmp _ => .jmp
  | .jeq _ => .jeq
  | .jne _ => .jne
  | .sub _ _ => .sub
  | .div _ _ => .div

/-- The operand bytes of an instruction, in address order (R48). -/
def Instr.operands : Instr → List Byte
  | .ldi a imm => [a, imm]
  | .prn a => [a]
  | .hlt => []
  | .mul a b => [a, b]
  | .add a b => [a, b]
  | .cmp a b => [a, b]
  | .push a => [a]
  | .pop a => [a]
  | .call a => [a]
  | .ret => []
  | .jmp a => [a]
  | .jeq a => [a]
  | .jne a => [a]
  | .sub a b => [a, b]
  | .div a b => [a, b]

/-- The bytes of an instruction, lowest address first (R46). -/
def encode (i : Instr) : List Byte := i.handler.opcode :: i.operands

end Sys2Proof
end

