-- ==== Sys2Proof/Machine/State.lean ====
section
/-! DEFINITION. The state of the machine (10_state.md, R32 is the spec's list of it), its reset value (70_reset_and_hazards.md R97)
and the reasons a step can stop. -/

namespace Sys2Proof.Machine

/-- A fault condition of the block (60_exceptions.md R86; code 0, NONE, is the absence of one). Taking one is a NEXT state. -/
inductive FaultCause where
  | illegalInstruction
  | outOfBounds
  | divideByZero
  | unsupportedOperation
  | loadFailure
  deriving DecidableEq, Repr

/-- A raised fault: the condition and the value FAULT_INFO records (R86, R87). -/
structure FaultRecord where
  cause : FaultCause
  info  : Addr
  deriving DecidableEq, Repr

/-- The three condition bits of FL (10_state.md R24). FL[7:3] hold nothing; `Flags.toByte` is the 8-bit layout. -/
structure Flags where
  e : Bool
  l : Bool
  g : Bool
  deriving DecidableEq, Repr

/-- The values held only within one instruction (10_state.md R28): the instruction register, the operand latches, the decoded
`n` and `c`, and the handler identity (`none` is "no handler"). -/
structure Latches where
  ir  : Byte
  opA : Byte
  opB : Byte
  n   : BitVec 2
  c   : Bool
  h   : Option Handler
  deriving DecidableEq, Repr

/-- Memory (20_memory.md R33) as the list of its nonzero bytes, addresses strictly rising; an unlisted address reads as 0. -/
abbrev Memory := List Host.Cell

/-- What an address with no cell reads as: memory is zero-initialized (R33, R97). -/
def Memory.unlisted : Byte := 0

/-- The state of the block and of the memory and output stream it drives (10_state.md R32). -/
structure State where
  regs       : Vector Byte 8
  pc         : Addr
  fl         : Flags
  halted     : Bool
  faultCause : BitVec 3
  faultInfo  : Addr
  mem        : Memory
  output     : List Byte
  latch      : Latches
  deriving DecidableEq, Repr

/-- The latches after reset: the spec leaves them unspecified and never reads them before a fetch sets them (R28, R97); all zero,
no handler. DESIGN CHOICE, log 2, unsafe; no statement rests on it. -/
def Latches.reset : Latches := { ir := 0, opA := 0, opB := 0, n := 0, c := false, h := none }

/-- The machine right after reset, before any image is loaded (70_reset_and_hazards.md R97). -/
def State.reset : State where
  regs := #v[0, 0, 0, 0, 0, 0, 0, Config.spReset]
  pc := Config.pcReset
  fl := { e := false, l := false, g := false }
  halted := false
  faultCause := 0
  faultInfo := 0
  mem := []
  output := []
  latch := Latches.reset

/-- The stops of a step that are no next state. There is none, so the type has no constructor and nobody raises it (log 3, safe):
each fault of R86 has an entry the spec describes (R87) and is taken as a next state, and a halted block keeps its state (R26). -/
inductive Fault
  deriving DecidableEq, Repr

/-- Why an instruction has no meaning. -/
inductive Refusal where
  /-- The instruction of this mnemonic is not modelled yet. Raised by an arm of `exec` only; at present by none. Safe. -/
  | notModelled (mnemonic : String)
  deriving DecidableEq, Repr

end Sys2Proof.Machine
end

