-- ==== Sys2Proof/Machine/Ops.lean ====
section
/-! DEFINITION. The shared operations: registers, memory, the output stream, taking a fault, the pc update, and the running of one
handler. Every meaning is written over these. -/

namespace Sys2Proof.Machine

/-- `zext_9` of a narrower value (00_scope.md R11). -/
def zext9 {w : Nat} (v : BitVec w) : Addr := v.setWidth 9

/-! ### Memory (20_memory.md) -/

/-- The byte at an address; an unlisted address reads as 0 (R33). -/
def Memory.read : Memory → Nat → Byte
  | [], _ => Memory.unlisted
  | c :: m, a => if c.1 = a then c.2 else Memory.read m a

/-- Memory with no cell at an address. -/
def Memory.erase (m : Memory) (a : Nat) : Memory := m.filter (fun c => c.1 ≠ a)

/-- Memory with a cell put in its place in the order of addresses. -/
def Memory.insert : Memory → Nat → Byte → Memory
  | [], a, v => [(a, v)]
  | c :: m, a, v => if a < c.1 then (a, v) :: c :: m else c :: Memory.insert m a v

/-- Memory after a write of one byte: only the addressed byte changes (R39). Writing 0 leaves no cell. -/
def Memory.write (m : Memory) (a : Nat) (v : Byte) : Memory :=
  if v = Memory.unlisted then m.erase a else (m.erase a).insert a v

/-- The canonical form: addresses below 256 and strictly rising, no cell holding what an unlisted address reads as. -/
def Memory.wf : Memory → Bool
  | [] => true
  | c :: m => c.1 < Config.memSize && c.2 != Memory.unlisted && m.all (fun d => c.1 < d.1) && Memory.wf m

/-! ### Faults (60_exceptions.md) -/

/-- The FAULT_CAUSE code of a condition (R86). -/
def FaultCause.code : FaultCause → BitVec 3
  | .illegalInstruction => 1
  | .outOfBounds => 2
  | .divideByZero => 3
  | .unsupportedOperation => 4
  | .loadFailure => 5

/-- Fault entry (R87): FAULT_CAUSE, FAULT_INFO and HALTED are written, and nothing else. There is no return from a fault (R88). -/
def State.takeFault (f : FaultRecord) (s : State) : State :=
  { s with faultCause := f.cause.code, faultInfo := f.info, halted := true }

/-- `raise IllegalInstruction(ir)` (30_encoding.md R51). -/
def illegalInstruction (ir : Byte) : FaultRecord := { cause := .illegalInstruction, info := zext9 ir }

/-- `raise OutOfBounds(v)` (R86): an address or a register index. -/
def outOfBounds {w : Nat} (v : BitVec w) : FaultRecord := { cause := .outOfBounds, info := zext9 v }

/-- `raise DivideByZero(b)` (R86): `b` is the divisor's register index. -/
def divideByZero (b : Byte) : FaultRecord := { cause := .divideByZero, info := zext9 b }

/-- `raise UnsupportedOperation(alu_op)` (40_alu.md R67). -/
def unsupportedOperation (op : BitVec 4) : FaultRecord := { cause := .unsupportedOperation, info := zext9 op }

/-- `raise LoadFailure(k)` (70_reset_and_hazards.md R98). -/
def loadFailure (k : Addr) : FaultRecord := { cause := .loadFailure, info := k }

/-- A computation of a handler: its result, or the fault it raised (00_scope.md R12). -/
abbrev Raises (α : Type) := Except FaultRecord α

/-- `if cond then raise f`. -/
def raiseIf (cond : Bool) (f : FaultRecord) : Raises Unit := if cond then .error f else .ok ()

/-! ### Single updates of the state (00_scope.md R12) -/

/-- `x[k]`. -/
def State.reg (s : State) (k : Fin 8) : Byte := s.regs[k]

/-- `x[k] <- v`. -/
def State.writeReg (s : State) (k : Fin 8) (v : Byte) : State := { s with regs := s.regs.set k v }

/-- `SP`, another name for `x[7]` (10_state.md R17). -/
def State.sp (s : State) : Byte := s.reg Config.spIndex

/-- `pc <- target`. -/
def State.setPc (s : State) (target : Addr) : State := { s with pc := target }

/-- `FL <- f`. -/
def State.setFlags (s : State) (f : Flags) : State := { s with fl := f }

/-- `halt()`: HALTED <- 1. -/
def State.halt (s : State) : State := { s with halted := true }

/-- `Output(v)`: appends to the output stream (10_state.md R30). -/
def State.emit (s : State) (v : Byte) : State := { s with output := s.output ++ [v] }

/-- The byte at an address of memory. -/
def State.readByte (s : State) (x : Byte) : Byte := s.mem.read x.toNat

/-- The state with one byte of memory written. -/
def State.writeByte (s : State) (x : Byte) (v : Byte) : State := { s with mem := s.mem.write x.toNat v }

/-! ### Memory accesses with their bounds check (20_memory.md R34) -/

/-- `MemRead(addr, 1)`. -/
def State.memRead (s : State) (addr : Addr) : Raises Byte :=
  if addr.toNat < Config.memSize then .ok (s.readByte (addr.setWidth 8)) else .error (outOfBounds addr)

/-- `MemWrite(addr, 1, v)`. -/
def State.memWrite (s : State) (addr : Addr) (v : Byte) : Raises State :=
  if addr.toNat < Config.memSize then .ok (s.writeByte (addr.setWidth 8) v) else .error (outOfBounds addr)

/-! ### The stack (42_stack.md R76, R77) -/

/-- `x[7] <- (x[7] - 1) mod 256`. -/
def State.decSp (s : State) : State := s.writeReg Config.spIndex (s.sp - 1)

/-- `x[7] <- (x[7] + 1) mod 256`. -/
def State.incSp (s : State) : State := s.writeReg Config.spIndex (s.sp + 1)

/-- `MemRead(x[7], 1)`. -/
def State.readTop (s : State) : Raises Byte := s.memRead (zext9 s.sp)

/-- `MemWrite(x[7], 1, v)`. -/
def State.writeTop (s : State) (v : Byte) : Raises State := s.memWrite (zext9 s.sp) v

/-! ### The running of a handler (30_encoding.md R55, R56) -/

/-- The program_counter_control after a handler that raised nothing (R56): `pc <- pc + n + 1` when `c = 0`, with `n` and `c` read
from the opcode byte; when `c = 1` the handler's `pc` stands. -/
def State.pcControl (s : State) (ir : Byte) : State :=
  if setsPc ir then s else s.setPc (s.pc + zext9 (operandCount ir) + 1)

/-- One instruction after its fetch: the handler, then the pc update. A raised fault is taken in the state BEFORE the handler, so no
write of the handler and no pc update remains (R87, 00_scope.md R13). -/
def runHandler (h : Handler) (handler : State → Raises State) (s : State) : Host.Outcome State Fault Refusal :=
  match handler s with
  | .ok t => .next (t.pcControl h.opcode)
  | .error f => .next (s.takeFault f)

end Sys2Proof.Machine
end

