-- ==== Sys2Proof/Machine/Flags.lean ====
section
/-! DEFINITION. The flags_register: the flag computation of CMP (40_alu.md R66) and the 8-bit layout of FL (10_state.md R24). -/

namespace Sys2Proof.Machine

/-- `ALU_CMP(A, B)`: all three cleared, then exactly one set by the unsigned comparison (R66). -/
def cmpFlags (A B : Byte) : Flags :=
  let cleared : Flags := { e := false, l := false, g := false }
  if A = B then { cleared with e := true }
  else if A.toNat < B.toNat then { cleared with l := true }
  else { cleared with g := true }

/-- FL as a byte (R24): E = FL[0], G = FL[1], L = FL[2], FL[7:3] read 0. No instruction reads it so. -/
def Flags.toByte (f : Flags) : Byte := (0 : BitVec 5) ++ BitVec.ofBool f.l ++ BitVec.ofBool f.g ++ BitVec.ofBool f.e

end Sys2Proof.Machine
end

