-- ==== Sys2Proof/Machine/AluCore.lean ====
section
/-! DEFINITION. The alu_core sub-block on its own (40_alu.md R60 to R67). -/

namespace Sys2Proof.Machine

/-- What the ALU answers (R60): a result (`res_we`), a flag triple (`fl_we`), or one of its two fault indications. -/
inductive AluOut where
  | result (r : Byte)
  | flags (f : Flags)
  | divideByZero
  | unsupported (op : BitVec 4)
  deriving DecidableEq, Repr

/-- R62. -/
def aluAdd (A B : Byte) : Byte := BitVec.ofNat 8 ((A.toNat + B.toNat) % 256)

/-- R63. -/
def aluSub (A B : Byte) : Byte := BitVec.ofInt 8 (((A.toNat : Int) - B.toNat) % 256)

/-- R64. -/
def aluMul (A B : Byte) : Byte := BitVec.ofNat 8 ((A.toNat * B.toNat) % 256)

/-- R65: unsigned floor division, or DivideByZero. -/
def aluDiv (A B : Byte) : AluOut :=
  if B = 0 then .divideByZero else .result (BitVec.ofNat 8 (A.toNat / B.toNat))

/-- The alu_core (R60): the operation an `alu_op` selects; every other select is unsupported (R67). -/
def aluCore (op : BitVec 4) (A B : Byte) : AluOut :=
  if op = 0x0 then .result (aluAdd A B)
  else if op = 0x1 then .result (aluSub A B)
  else if op = 0x2 then .result (aluMul A B)
  else if op = 0x3 then aluDiv A B
  else if op = 0x7 then .flags (cmpFlags A B)
  else .unsupported op

/-- `res_we` (R60). -/
def AluOut.resWe : AluOut → Bool
  | .result _ => true
  | .flags _ => false
  | .divideByZero => false
  | .unsupported _ => false

/-- `fl_we` (R60). -/
def AluOut.flWe : AluOut → Bool
  | .result _ => false
  | .flags _ => true
  | .divideByZero => false
  | .unsupported _ => false

end Sys2Proof.Machine
end

