-- ==== Sys2Proof/Machine/Operands.lean ====
section
/-! DEFINITION. The two operand forms (30_encoding.md R48): a register index and an immediate. -/

namespace Sys2Proof.Machine

/-- `CheckReg(i)` (00_scope.md R14): the whole operand byte as a register index, or OutOfBounds(i). -/
def checkReg (i : Byte) : Raises (Fin 8) :=
  if h : i.toNat < 8 then .ok ⟨i.toNat, h⟩ else .error (outOfBounds i)

/-- What an operand byte is (R48). -/
inductive OperandKind where
  | register
  | immediate
  deriving DecidableEq, Repr

/-- The kinds of a handler's operands, opA first (the table of R48). -/
def operandKinds : Handler → List OperandKind
  | .ldi => [.register, .immediate]
  | .prn => [.register]
  | .hlt => []
  | .mul => [.register, .register]
  | .add => [.register, .register]
  | .cmp => [.register, .register]
  | .push => [.register]
  | .pop => [.register]
  | .call => [.register]
  | .ret => []
  | .jmp => [.register]
  | .jeq => [.register]
  | .jne => [.register]
  | .sub => [.register, .register]
  | .div => [.register, .register]

/-- The value of an immediate operand: the byte as it is, neither extended nor shifted (R48). -/
def immediate (i : Byte) : Byte := i

end Sys2Proof.Machine
end

