-- ==== Sys2Proof/Machine/Alu.lean ====
section
/-! DEFINITION. The arithmetic instructions (40_alu.md R68 to R72). -/

namespace Sys2Proof.Machine

/-- The shared handler of the five ALU instructions: both index checks, then the ALU on `x[a]` and `x[b]`, its result to `x[a]` or
its flag triple to FL (R60). DivideByZero records the index byte `b` (R71), UnsupportedOperation the select (R67). -/
def aluHandler (op : BitVec 4) (a b : Byte) (s : State) : Raises State := do
  let ra ← checkReg a
  let rb ← checkReg b
  match aluCore op (s.reg ra) (s.reg rb) with
  | .result r => .ok (s.writeReg ra r)
  | .flags f => .ok (s.setFlags f)
  | .divideByZero => .error (Machine.divideByZero b)
  | .unsupported op => .error (unsupportedOperation op)

/-- ADD (R68). -/
def execAdd (a b : Byte) (s : State) : Host.Outcome State Fault Refusal :=
  runHandler .add (aluHandler (aluSelect Handler.add.opcode) a b) s

/-- SUB (R69). -/
def execSub (a b : Byte) (s : State) : Host.Outcome State Fault Refusal :=
  runHandler .sub (aluHandler (aluSelect Handler.sub.opcode) a b) s

/-- MUL (R70). -/
def execMul (a b : Byte) (s : State) : Host.Outcome State Fault Refusal :=
  runHandler .mul (aluHandler (aluSelect Handler.mul.opcode) a b) s

/-- DIV (R71). -/
def execDiv (a b : Byte) (s : State) : Host.Outcome State Fault Refusal :=
  runHandler .div (aluHandler (aluSelect Handler.div.opcode) a b) s

/-- CMP (R72). -/
def execCmp (a b : Byte) (s : State) : Host.Outcome State Fault Refusal :=
  runHandler .cmp (aluHandler (aluSelect Handler.cmp.opcode) a b) s

end Sys2Proof.Machine
end

