-- ==== Sys2Proof/Machine/ControlTransfer.lean ====
section
/-! DEFINITION. CALL, RET, JMP, JEQ and JNE (43_control_transfer.md R80 to R85). All have `c = 1`: the handler writes `pc`. -/

namespace Sys2Proof.Machine

/-- CALL (R81): the return address is `pc + 2`, OutOfBounds if it does not fit a byte; the target is read after the push. -/
def execCall (a : Byte) (s : State) : Host.Outcome State Fault Refusal :=
  runHandler .call (fun s => do
    let ra ← checkReg a
    let ret := s.pc.toNat + 2
    raiseIf (255 < ret) (outOfBounds (BitVec.ofNat 9 ret))
    let s ← s.decSp.writeTop (BitVec.ofNat 8 ret)
    .ok (s.setPc (zext9 (s.reg ra)))) s

/-- RET (R82). -/
def execRet (s : State) : Host.Outcome State Fault Refusal :=
  runHandler .ret (fun s => do
    let target ← s.readTop
    .ok (s.setPc (zext9 target)).incSp) s

/-- The shared handler of the jumps: the index is checked whether or not the jump is taken (R84, R85); not taken, `pc <- pc + 2`. -/
def jumpHandler (a : Byte) (taken : Bool) (s : State) : Raises State := do
  let ra ← checkReg a
  .ok (s.setPc (if taken then zext9 (s.reg ra) else s.pc + 2))

/-- JMP (R83). -/
def execJmp (a : Byte) (s : State) : Host.Outcome State Fault Refusal :=
  runHandler .jmp (jumpHandler a true) s

/-- JEQ (R84): taken when FL.E = 1. -/
def execJeq (a : Byte) (s : State) : Host.Outcome State Fault Refusal :=
  runHandler .jeq (jumpHandler a s.fl.e) s

/-- JNE (R85): taken when FL.E = 0. -/
def execJne (a : Byte) (s : State) : Host.Outcome State Fault Refusal :=
  runHandler .jne (jumpHandler a (!s.fl.e)) s

end Sys2Proof.Machine
end

