-- ==== Sys2Proof/Machine/LoadPrintHalt.lean ====
section
/-! DEFINITION. LDI, PRN and HLT (41_load_print_halt.md R73 to R75). -/

namespace Sys2Proof.Machine

/-- LDI (R73). -/
def execLdi (a imm : Byte) (s : State) : Host.Outcome State Fault Refusal :=
  runHandler .ldi (fun s => do
    let ra ← checkReg a
    .ok (s.writeReg ra (immediate imm))) s

/-- PRN (R74). -/
def execPrn (a : Byte) (s : State) : Host.Outcome State Fault Refusal :=
  runHandler .prn (fun s => do
    let ra ← checkReg a
    .ok (s.emit (s.reg ra))) s

/-- HLT (R75): HALTED <- 1, and `pc` still advances by 1 (92_eei_decisions.md D7). -/
def execHlt (s : State) : Host.Outcome State Fault Refusal :=
  runHandler .hlt (fun s => .ok s.halt) s

end Sys2Proof.Machine
end

