-- ==== Sys2Proof/Machine/Stack.lean ====
section
/-! DEFINITION. PUSH and POP (42_stack.md R76 to R79). -/

namespace Sys2Proof.Machine

/-- PUSH (R78): `x[a]` is read after the decrement, so PUSH R7 stores the decremented SP. -/
def execPush (a : Byte) (s : State) : Host.Outcome State Fault Refusal :=
  runHandler .push (fun s => do
    let ra ← checkReg a
    let s := s.decSp
    s.writeTop (s.reg ra)) s

/-- POP (R79): `x[7]` is read again after the load, so POP R7 ends with the loaded byte plus 1. -/
def execPop (a : Byte) (s : State) : Host.Outcome State Fault Refusal :=
  runHandler .pop (fun s => do
    let ra ← checkReg a
    let v ← s.readTop
    .ok (s.writeReg ra v).incSp) s

end Sys2Proof.Machine
end

