-- ==== Sys2Proof/Machine/Fetch.lean ====
section
/-! DEFINITION. The fetch_unit (30_encoding.md R54) and the latches it sets (10_state.md R28). -/

namespace Sys2Proof.Machine

/-- `ir <- …; (n, c, h, …) <- Decode(ir)`. -/
def State.latchOpcode (s : State) (ir : Byte) (d : Decoded) : State :=
  { s with latch := { s.latch with ir := ir, n := d.n, c := d.c, h := d.handler } }

/-- `opA <- v`. -/
def State.latchA (s : State) (v : Byte) : State := { s with latch := { s.latch with opA := v } }

/-- `opB <- v`. -/
def State.latchB (s : State) (v : Byte) : State := { s with latch := { s.latch with opB := v } }

/-- The operand reads of R54: opA when `n >= 1`, then opB when `n >= 2`, each with its bounds check. The state is the one with
what was latched before a raise. -/
def fetchOperands (n : BitVec 2) (s : State) : State × Raises Unit :=
  if n.toNat = 0 then (s, .ok ())
  else
    match s.memRead (s.pc + 1) with
    | .error f => (s, .error f)
    | .ok a =>
      let s := s.latchA a
      if n.toNat = 1 then (s, .ok ())
      else
        match s.memRead (s.pc + 2) with
        | .error f => (s, .error f)
        | .ok b => (s.latchB b, .ok ())

/-- `Fetch()` (R54): the state with the latches set, and the instruction, or the fault raised. Legality is checked before any
operand byte is read. -/
def fetch (cfg : Config) (s : State) : State × Raises Instr :=
  match s.memRead s.pc with
  | .error f => (s, .error f)
  | .ok ir =>
    let d := decodeOpcode cfg ir
    let s := s.latchOpcode ir d
    match d.handler with
    | none => (s, .error (illegalInstruction ir))
    | some h =>
      match fetchOperands d.n s with
      | (s, .error f) => (s, .error f)
      | (s, .ok ()) => (s, .ok (h.instr s.latch.opA s.latch.opB))

end Sys2Proof.Machine
end

