-- ==== Sys2Proof/Machine/Cycle.lean ====
section
/-! DEFINITION. One step of the block for either value of the parameter (30_encoding.md R57). -/

namespace Sys2Proof.Machine

/-- `Step()` (R57): fetch, then the instruction; a fault of the fetch is taken (60_exceptions.md R87). A halted block changes no state
(10_state.md R26); that this is answered as `next` of the same state is DESIGN CHOICE, log 1. -/
def stepWith (cfg : Config) (s : State) : Host.Outcome State Fault Refusal :=
  if s.halted then .next s
  else
    match fetch cfg s with
    | (s, .error f) => .next (s.takeFault f)
    | (s, .ok i) => exec i s

/-- `k` steps (70_reset_and_hazards.md R99). A step that stopped would end the run where it stands; none does. -/
def runWith (cfg : Config) : Nat → State → State
  | 0, s => s
  | k + 1, s =>
    match stepWith cfg s with
    | .next t => runWith cfg k t
    | .fault _ => s
    | .refused _ => s

/-- The state with bytes stored from an address up; an address above 255 has no byte. -/
def State.placeBytes (s : State) (at' : Nat) : List Byte → State
  | [] => s
  | v :: vs =>
    let s := if at' < Config.memSize then s.writeByte (BitVec.ofNat 8 at') v else s
    s.placeBytes (at' + 1) vs

end Sys2Proof.Machine
end

