-- ==== Sys2Proof/Machine/Step.lean ====
section
/-! DEFINITION. The step of the machine with the default parameter, and the placing of one instruction for the host's probe. -/

namespace Sys2Proof.Machine

/-- One step of the block with ENABLE_SUB_DIV at its default (00_scope.md R8, 30_encoding.md R57; log 4). -/
def step (s : State) : Host.Outcome State Fault Refusal := stepWith Config.default s

/-- `s` with an opcode-table word stored at `pc`, where the fetch reads, and HALTED clear so that the next step fetches it (log 6). -/
def State.withFetchWord (s : State) (nbits w : Nat) : State :=
  { s.placeBytes s.pc.toNat (tableBytes nbits w) with halted := false }

end Sys2Proof.Machine
end

