-- ==== Sys2Proof/Machine/Assembly.lean ====
section
/-! DEFINITION. The assembler syntax (30_encoding.md R58), on lists of characters. Blanks around tokens and the letter case are the
model's choice (log 10). The text of an image (R59) is outside the block (00_scope.md R5). -/

namespace Sys2Proof.Machine

/-- The short mnemonic of a handler (R49, R58). -/
def mnemonic : Handler → List Char
  | .ldi => ['L', 'D', 'I']
  | .prn => ['P', 'R', 'N']
  | .hlt => ['H', 'L', 'T']
  | .mul => ['M', 'U', 'L']
  | .add => ['A', 'D', 'D']
  | .cmp => ['C', 'M', 'P']
  | .push => ['P', 'U', 'S', 'H']
  | .pop => ['P', 'O', 'P']
  | .call => ['C', 'A', 'L', 'L']
  | .ret => ['R', 'E', 'T']
  | .jmp => ['J', 'M', 'P']
  | .jeq => ['J', 'E', 'Q']
  | .jne => ['J', 'N', 'E']
  | .sub => ['S', 'U', 'B']
  | .div => ['D', 'I', 'V']

/-- The source's long name, a synonym, where it differs from the mnemonic (R49, R58). -/
def longName : Handler → Option (List Char)
  | .ldi => some ['L', 'O', 'A', 'D', '-', 'I', 'M', 'M', 'E', 'D', 'I', 'A', 'T', 'E']
  | .prn => some ['P', 'R', 'I', 'N', 'T', '-', 'R', 'E', 'G', 'I', 'S', 'T', 'E', 'R']
  | .hlt => some ['H', 'A', 'L', 'T']
  | .mul => some ['M', 'U', 'L', 'T', 'I', 'P', 'L', 'Y']
  | .add => none
  | .cmp => some ['C', 'O', 'M', 'P', 'A', 'R', 'E']
  | .push => none
  | .pop => none
  | .call => none
  | .ret => some ['R', 'E', 'T', 'U', 'R', 'N']
  | .jmp => some ['J', 'U', 'M', 'P']
  | .jeq => some ['J', 'U', 'M', 'P', '-', 'I', 'F', '-', 'E', 'Q', 'U', 'A', 'L']
  | .jne => some ['J', 'U', 'M', 'P', '-', 'I', 'F', '-', 'N', 'O', 'T', '-', 'E', 'Q', 'U', 'A', 'L']
  | .sub => none
  | .div => none

/-- Every handler. -/
def allHandlers : List Handler := [.ldi, .prn, .hlt, .mul, .add, .cmp, .push, .pop, .call, .ret, .jmp, .jeq, .jne, .sub, .div]

/-- The handler a mnemonic or a long name stands for. -/
def handlerNamed (w : List Char) : Option Handler :=
  allHandlers.find? (fun h => mnemonic h = w || longName h = some w)

/-- The value of a digit. -/
def digitValue (c : Char) : Option Nat :=
  if '0' ≤ c ∧ c ≤ '9' then some (c.toNat - 48)
  else if 'a' ≤ c ∧ c ≤ 'f' then some (c.toNat - 87)
  else if 'A' ≤ c ∧ c ≤ 'F' then some (c.toNat - 55)
  else none

/-- A number's digits in a base, after a value already read. -/
def parseDigits (base : Nat) : Nat → List Char → Option Nat
  | acc, [] => some acc
  | acc, c :: cs =>
    match digitValue c with
    | some d => if d < base then parseDigits base (acc * base + d) cs else none
    | none => none

/-- An immediate: decimal, or hexadecimal after `0x`, in 0..255 (R58). -/
def parseImmediate (w : List Char) : Option Byte :=
  let value := match w with
    | '0' :: 'x' :: d :: ds => parseDigits 16 0 (d :: ds)
    | d :: ds => parseDigits 10 0 (d :: ds)
    | [] => none
  match value with
  | some v => if v < 256 then some (BitVec.ofNat 8 v) else none
  | none => none

/-- A register, `R0` .. `R7` (R58). -/
def parseRegister : List Char → Option Byte
  | ['R', c] => if '0' ≤ c ∧ c ≤ '7' then some (BitVec.ofNat 8 (c.toNat - 48)) else none
  | _ => none

/-- One operand of a kind. -/
def parseOperand : OperandKind → List Char → Option Byte
  | .register, w => parseRegister w
  | .immediate, w => parseImmediate w

/-- Operands of the kinds asked for, in order; `none` when their number differs. -/
def parseOperands : List OperandKind → List (List Char) → Option (List Byte)
  | [], [] => some []
  | k :: ks, w :: ws =>
    match parseOperand k w, parseOperands ks ws with
    | some b, some bs => some (b :: bs)
    | _, _ => none
  | _, _ => none

/-- A word without the blanks before and after it. -/
def trimBlanks (w : List Char) : List Char :=
  ((w.dropWhile (· = ' ')).reverse.dropWhile (· = ' ')).reverse

/-- The pieces of a text between commas. -/
def splitCommas : List Char → List (List Char)
  | [] => [[]]
  | c :: cs =>
    match splitCommas cs with
    | [] => [[c]]
    | w :: ws => if c = ',' then [] :: w :: ws else (c :: w) :: ws

/-- One line of assembly (R58): a mnemonic or long name, then operands in opA, opB order, separated by commas. An instruction that is
not in the opcode table under the parameter is no instruction. -/
def parseLine (cfg : Config) (line : List Char) : Option Instr :=
  let line := trimBlanks line
  let name := line.takeWhile (· ≠ ' ')
  let rest := trimBlanks (line.dropWhile (· ≠ ' '))
  match handlerNamed name with
  | none => none
  | some h =>
    match parseOperands (operandKinds h) (if rest = [] then [] else (splitCommas rest).map trimBlanks) with
    | none => none
    | some bs =>
      let i := h.instr (bs.getD 0 0) (bs.getD 1 0)
      if i.inTable cfg then some i else none

/-- An operand as text: `R` and the index digit, or the decimal number. -/
def renderOperand : OperandKind → Byte → List Char
  | .register, b => 'R' :: Nat.toDigits 10 b.toNat
  | .immediate, b => Nat.toDigits 10 b.toNat

/-- Operands separated by a comma and a blank. -/
def renderOperands : List OperandKind → List Byte → List Char
  | [k], [b] => renderOperand k b
  | k :: ks, b :: bs => renderOperand k b ++ [',', ' '] ++ renderOperands ks bs
  | _, _ => []

/-- An instruction as a line of assembly, `LDI R0, 8` (R58). -/
def renderLine (i : Instr) : List Char :=
  match i.operands with
  | [] => mnemonic i.handler
  | bs => mnemonic i.handler ++ [' '] ++ renderOperands (operandKinds i.handler) bs

end Sys2Proof.Machine
end

