-- ==== Sys2Proof/Machine/Loader.lean ====
section
/-! DEFINITION. The program load (70_reset_and_hazards.md R98) and the boot order (R99). The text of an image is parsed outside the
block (00_scope.md R5): the block receives integers. -/

namespace Sys2Proof.Machine

/-- `MemWrite(k, 1, img[0])`, `MemWrite(k + 1, 1, img[1])`, … -/
def writeImage (m : Memory) (k : Nat) : List Int → Memory
  | [] => m
  | v :: vs => writeImage (m.write k (BitVec.ofInt 8 v)) (k + 1) vs

/-- `Load(img)` (R98); `none` is "img is absent". The host calls it after reset and before the first step (log 6). -/
def load (img : Option (List Int)) (s : State) : State :=
  match img with
  | none => s.takeFault (loadFailure 1)
  | some l =>
    if l.length > Config.memSize then s.takeFault (loadFailure 2)
    else if l.any (fun v => v < 0 || 255 < v) then s.takeFault (loadFailure 3)
    else { s with mem := writeImage s.mem 0 l }

/-- Reset, then load (R99): the state in which the first step is taken. -/
def boot (img : Option (List Int)) : State := load img State.reset

end Sys2Proof.Machine
end

