-- ==== Sys2Proof/Machine/HostText.lean ====
section
/-! DEFINITION. The two texts of the host: the lines it prints for the output stream (41_load_print_halt.md R74) and the image format
it loads from (30_encoding.md R59). Both stand outside the block (00_scope.md R5); they are here so that a run can be told whole. -/

namespace Sys2Proof.Machine

/-- A line end, which the spec does not spell: PRESUMED U+000A, log 15. No statement rests on its value. -/
def lineEnd : List Char := ['\n']

/-- One value of the output stream: its decimal digits and one line end (R74). -/
def renderValue (v : Byte) : List Char := Nat.toDigits 10 v.toNat ++ lineEnd

/-- What the host prints for an output stream, the values in order (R74, 60_exceptions.md R93). -/
def renderOutput (out : List Byte) : List Char := out.flatMap renderValue

/-- The lines of a text. -/
def splitLines : List Char → List (List Char)
  | [] => [[]]
  | c :: cs =>
    match splitLines cs with
    | [] => [[c]]
    | w :: ws => if c = '\n' then [] :: w :: ws else (c :: w) :: ws

/-- A base-2 literal of the digits 0 and 1, after a value already read. -/
def parseBinary : Nat → List Char → Option Nat
  | acc, [] => some acc
  | acc, '0' :: cs => parseBinary (2 * acc) cs
  | acc, '1' :: cs => parseBinary (2 * acc + 1) cs
  | _, _ :: _ => none

/-- One line of an image (R59): the text before a `#`, without blanks around it, as a base-2 literal. `none` is a line that is
skipped: blank, comment only, or no literal. Only digits are taken for a literal, and blanks are spaces, tabs and carriage returns
(log 11). -/
def parseImageLine (line : List Char) : Option Int :=
  let blank : Char → Bool := fun c => c = ' ' || c = '\t' || c = '\r'
  let text := ((line.takeWhile (· ≠ '#')).dropWhile blank).reverse.dropWhile blank
  match text.reverse with
  | [] => none
  | w => (parseBinary 0 w).map Int.ofNat

/-- The image a text stands for (R59): the values of its lines in order, to be loaded from address 0 (70_reset_and_hazards.md R98). -/
def parseImage (text : List Char) : List Int := (splitLines text).filterMap parseImageLine

end Sys2Proof.Machine
end

