-- ==== Sys2Proof/Machine/Ports.lean ====
section
/-! DEFINITION. The block's external interfaces (00_scope.md R9) as views of the state and of one step. They have no timing (R6). -/

namespace Sys2Proof.Machine

/-- The status port: `halted` (1 bit), `fault_cause` (3 bits), `fault_info` (9 bits). -/
structure StatusPort where
  halted     : BitVec 1
  faultCause : BitVec 3
  faultInfo  : BitVec 9
  deriving DecidableEq, Repr

/-- What the status port shows (10_state.md R26, R27). -/
def statusPort (s : State) : StatusPort :=
  { halted := BitVec.ofBool s.halted, faultCause := s.faultCause, faultInfo := s.faultInfo }

/-- The output port over one step from `s` to `t`: `some v` is `out_valid = 1`, `out_data = v`; `none` is `out_valid = 0`
(41_load_print_halt.md R74; `out_data` has then no stated value and none is given). -/
def outputPort (s t : State) : Option Byte := t.output[s.output.length]?

/-- One access on the memory port (R9): a read, `mem_raddr` from the block and `mem_rdata` back to it, or a write of `mem_wdata` at
`mem_waddr` (`mem_we = 1`). Each of the four is 8 bits. -/
inductive Access where
  | read (raddr rdata : Byte)
  | write (waddr wdata : Byte)
  deriving DecidableEq, Repr

/-- The read of an address in a state: memory drives `mem_rdata` with the byte there (20_memory.md R34, R42). -/
def State.readAccess (s : State) (x : Byte) : Access := .read x (s.readByte x)

/-- The data accesses of an instruction (20_memory.md R36's table), in the order its pseudocode makes them. An instruction that
raises a fault before its access makes none (00_scope.md R13). -/
def dataAccesses (i : Instr) (s : State) : List Access :=
  match i with
  | .push a =>
    if h : a.toNat < 8 then [.write s.decSp.sp (s.decSp.reg ⟨a.toNat, h⟩)] else []
  | .pop a => if a.toNat < 8 then [s.readAccess s.sp] else []
  | .call a =>
    if a.toNat < 8 ∧ s.pc.toNat + 2 < 256 then [.write s.decSp.sp (BitVec.ofNat 8 (s.pc.toNat + 2))] else []
  | .ret => [s.readAccess s.sp]
  | .ldi _ _ => []
  | .prn _ => []
  | .hlt => []
  | .mul _ _ => []
  | .add _ _ => []
  | .cmp _ _ => []
  | .jmp _ => []
  | .jeq _ => []
  | .jne _ => []
  | .sub _ _ => []
  | .div _ _ => []

/-- The addresses the fetch reads (30_encoding.md R54): `pc`, then one per operand byte of a legal opcode, as far as they exist. -/
def fetchAddresses (cfg : Config) (s : State) : List Nat :=
  let p := s.pc.toNat
  let ir := s.mem.read p
  let n := if (opcodeTable cfg ir).isSome then (operandCount ir).toNat else 0
  (List.range' p (n + 1)).filter (· < Config.memSize)

/-- Every access of one step on the memory port, in order (20_memory.md R36, R42). A halted block makes none (10_state.md R26). -/
def accesses (cfg : Config) (s : State) : List Access :=
  if s.halted then []
  else
    (fetchAddresses cfg s).map (fun a => s.readAccess (BitVec.ofNat 8 a)) ++
      match fetch cfg s with
      | (_, .error _) => []
      | (t, .ok i) => dataAccesses i t

/-- Memory after the writes of a list of accesses. -/
def Memory.replay (m : Memory) : List Access → Memory
  | [] => m
  | .read _ _ :: l => Memory.replay m l
  | .write a v :: l => Memory.replay (m.write a.toNat v) l

end Sys2Proof.Machine
end

