-- ==== Sys2Proof/Safety.lean ====
section
/-! DEFINITION. What statements about the machine are written in: run states, what a step keeps, and the invariant of the machine. -/

namespace Sys2Proof.Machine

/-! ### Run states (00_scope.md R10, 70_reset_and_hazards.md R101) -/

/-- Running. -/
abbrev State.Running (s : State) : Prop := s.halted = false

/-- A normal halt: Halted with FAULT_CAUSE = NONE. -/
abbrev State.HaltedNormally (s : State) : Prop := s.halted = true ∧ s.faultCause = 0

/-- A faulted halt: Halted with FAULT_CAUSE other than NONE. This is what a safe run never reaches. -/
abbrev State.Faulted (s : State) : Prop := s.halted = true ∧ s.faultCause ≠ 0

/-- A run from a state that never faults. -/
def SafeRun (cfg : Config) (s : State) : Prop := ∀ k, ¬ (runWith cfg k s).Faulted

/-! ### What is kept from a state `s` to a state `t` -/

/-- Every register but the listed ones. -/
def RegsKeptBut (ks : List (Fin 8)) (s t : State) : Prop := ∀ k, k ∉ ks → t.reg k = s.reg k

/-- Every byte of memory but the listed ones, through the read of one byte. -/
def MemKeptBut (xs : List Byte) (s t : State) : Prop := ∀ x : Byte, x ∉ xs → t.readByte x = s.readByte x

/-- HALTED, FAULT_CAUSE and FAULT_INFO. -/
def StatusKept (s t : State) : Prop :=
  t.halted = s.halted ∧ t.faultCause = s.faultCause ∧ t.faultInfo = s.faultInfo

/-- The frame of an instruction that writes no flag, outputs nothing and neither halts nor faults: FL, the status registers, the
output stream and the latches are kept, and every register and memory byte but the listed ones. The pc is not spoken of. -/
structure Frame (ks : List (Fin 8)) (xs : List Byte) (s t : State) : Prop where
  regs   : RegsKeptBut ks s t
  mem    : MemKeptBut xs s t
  fl     : t.fl = s.fl
  status : StatusKept s t
  output : t.output = s.output
  latch  : t.latch = s.latch

/-- Fault entry from `s` to `t` with a code and a value (60_exceptions.md R87): the three registers are written and nothing else. -/
def FaultTaken (code : BitVec 3) (info : Addr) (s t : State) : Prop :=
  t = { s with faultCause := code, faultInfo := info, halted := true }

/-- The instruction, run at `s`, takes the fault. -/
def RaisesAt (i : Instr) (s : State) (code : BitVec 3) (info : Addr) : Prop :=
  ∃ t, exec i s = .next t ∧ FaultTaken code info s t

/-- What a fault of a step leaves as it was (R87): every register, `pc`, FL, memory and the output stream. The latches, which hold
their values only within one instruction (10_state.md R28), are not spoken of. -/
structure ProgramStateKept (s t : State) : Prop where
  regs   : t.regs = s.regs
  pc     : t.pc = s.pc
  fl     : t.fl = s.fl
  mem    : t.mem = s.mem
  output : t.output = s.output

/-- The latches after the fetch of an instruction (30_encoding.md R54): an operand byte that is not there leaves its latch. -/
def latchesOf (i : Instr) (l : Latches) : Latches :=
  { ir := i.handler.opcode
    opA := match i.operands with
      | a :: _ => a
      | [] => l.opA
    opB := match i.operands with
      | _ :: b :: _ => b
      | [_] => l.opB
      | [] => l.opB
    n := operandCount i.handler.opcode
    c := setsPc i.handler.opcode
    h := some i.handler }

/-! ### The invariant -/

/-- FAULT_CAUSE and FAULT_INFO hold a pair of the table of 60_exceptions.md R86. -/
abbrev State.FaultStatusLegal (s : State) : Prop :=
  (s.faultCause = 0 ∧ s.faultInfo = 0) ∨
  (s.faultCause = 1 ∧ s.faultInfo.toNat ≤ 255) ∨
  (s.faultCause = 2 ∧ 8 ≤ s.faultInfo.toNat ∧ s.faultInfo.toNat ≤ 258) ∨
  (s.faultCause = 3 ∧ s.faultInfo.toNat < 8) ∨
  (s.faultCause = 4 ∧ s.faultInfo.toNat < 16) ∨
  (s.faultCause = 5 ∧ 1 ≤ s.faultInfo.toNat ∧ s.faultInfo.toNat ≤ 3)

/-- At most one of the flags is set (10_state.md R25: none before the first CMP, exactly one after). -/
abbrev Flags.AtMostOne (f : Flags) : Prop := ¬ (f.e = true ∧ f.l = true) ∧ ¬ (f.e = true ∧ f.g = true) ∧ ¬ (f.l = true ∧ f.g = true)

/-- The invariant of the machine: memory is canonical; `pc` is one of the values it can reach (10_state.md R22); at most one flag is
set; the fault status is a pair of R86's table, and a fault has halted the block (60_exceptions.md R87). -/
structure State.Inv (s : State) : Prop where
  mem    : s.mem.wf = true
  pc     : s.pc.toNat ≤ 258
  flags  : s.fl.AtMostOne
  status : s.FaultStatusLegal
  fault  : s.faultCause ≠ 0 → s.halted = true

end Sys2Proof.Machine
end

