-- ==== Sys2Proof/Certificates/Slice0/Obligations.lean ====
section
/-! DEFINITION. The statements about the machine. Each is for either value of ENABLE_SUB_DIV where the parameter plays a part; `step`
is `stepWith Config.default`. -/

open Sys2Proof Sys2Proof.Machine

/-! ### Words the statements are written in -/

namespace Sys2Proof.Statement

/-- A row of the table of 30_encoding.md R49: handler, byte, `n`, `c`, and whether the row needs ENABLE_SUB_DIV. -/
structure Row where
  handler : Handler
  byte    : Byte
  n       : Nat
  c       : Bool
  optional : Bool

/-- The fifteen rows of 30_encoding.md R49. -/
def rows : List Row :=
  [⟨.ldi, 0x82, 2, false, false⟩, ⟨.prn, 0x47, 1, false, false⟩, ⟨.hlt, 0x01, 0, false, false⟩,
   ⟨.mul, 0xA2, 2, false, false⟩, ⟨.add, 0xA0, 2, false, false⟩, ⟨.cmp, 0xA7, 2, false, false⟩,
   ⟨.push, 0x45, 1, false, false⟩, ⟨.pop, 0x46, 1, false, false⟩, ⟨.call, 0x50, 1, true, false⟩,
   ⟨.ret, 0x11, 0, true, false⟩, ⟨.jmp, 0x54, 1, true, false⟩, ⟨.jeq, 0x55, 1, true, false⟩,
   ⟨.jne, 0x56, 1, true, false⟩, ⟨.sub, 0xA1, 2, false, true⟩, ⟨.div, 0xA3, 2, false, true⟩]

/-- The bytes with a handler under a parameter. -/
def handledBytes (cfg : Config) : List Byte :=
  (rows.filter (fun r => !r.optional || cfg.enableSubDiv)).map (·.byte)

/-- The index checks of an instruction with two register operands (00_scope.md R14, 60_exceptions.md R89): opA before opB. -/
def ChecksBothIndices (mk : Byte → Byte → Instr) : Prop :=
  ∀ a b s, (8 ≤ a.toNat → RaisesAt (mk a b) s 2 (zext9 a)) ∧
    (a.toNat < 8 → 8 ≤ b.toNat → RaisesAt (mk a b) s 2 (zext9 b))

/-- The index check of an instruction with one register operand (R14). -/
def ChecksIndex (mk : Byte → Instr) : Prop := ∀ a s, 8 ≤ a.toNat → RaisesAt (mk a) s 2 (zext9 a)

/-- The code and value of the first failing check of an instruction's handler (items 4 and 5 of 60_exceptions.md R89): its register
indices, opA first, then DIV's zero divisor and CALL's return address at 254. -/
def handlerCheck (i : Instr) (s : State) : Option (BitVec 3 × Addr) :=
  match i.regOperands.find? (fun r => 8 ≤ r.toNat) with
  | some r => some (2, zext9 r)
  | none =>
    match i with
    | .div _ b => if s.regs[b.toNat]? = some 0 then some (3, zext9 b) else none
    | .call _ => if s.pc.toNat = 254 then some (2, 256) else none
    | _ => none

/-- The code and value of the first failing check of a running block, in the order of R89, read off the bytes at `pc` and the
registers: the opcode fetch, the opcode, the operand fetches, the handler. -/
def firstFailingCheck (cfg : Config) (s : State) : Option (BitVec 3 × Addr) :=
  let p := s.pc.toNat
  let ir := s.mem.read p
  let n := (operandCount ir).toNat
  if p > 255 then some (2, s.pc)
  else
    match opcodeTable cfg ir with
    | none => some (1, zext9 ir)
    | some h =>
      if n ≥ 1 ∧ p + 1 > 255 then some (2, BitVec.ofNat 9 (p + 1))
      else if n ≥ 2 ∧ p + 2 > 255 then some (2, BitVec.ofNat 9 (p + 2))
      else handlerCheck (h.instr (s.mem.read (p + 1)) (s.mem.read (p + 2))) s

/-- The registers an instruction reads (10_state.md R20). -/
def readsRegs (i : Instr) : List Nat :=
  match i with
  | .ldi _ _ => []
  | .prn a => [a.toNat]
  | .hlt => []
  | .add a b => [a.toNat, b.toNat]
  | .sub a b => [a.toNat, b.toNat]
  | .mul a b => [a.toNat, b.toNat]
  | .div a b => [a.toNat, b.toNat]
  | .cmp a b => [a.toNat, b.toNat]
  | .push a => [a.toNat, 7]
  | .pop _ => [7]
  | .call a => [7, a.toNat]
  | .ret => [7]
  | .jmp a => [a.toNat]
  | .jeq a => [a.toNat]
  | .jne a => [a.toNat]

/-- The registers an instruction writes (R20). -/
def writesRegs (i : Instr) : List Nat :=
  match i with
  | .ldi a _ => [a.toNat]
  | .prn _ => []
  | .hlt => []
  | .add a _ => [a.toNat]
  | .sub a _ => [a.toNat]
  | .mul a _ => [a.toNat]
  | .div a _ => [a.toNat]
  | .cmp _ _ => []
  | .push _ => [7]
  | .pop a => [a.toNat, 7]
  | .call _ => [7]
  | .ret => [7]
  | .jmp _ => []
  | .jeq _ => []
  | .jne _ => []

/-- The address an instruction stores to (20_memory.md R36), if it is a storing form: `x[7]` after the decrement. -/
def storesAt (i : Instr) (s : State) : List Byte :=
  match i with
  | .push _ => [s.decSp.sp]
  | .call _ => [s.decSp.sp]
  | _ => []

/-- The bytes of memory from `pc` to address 255. -/
def bytesFromPc (s : State) : List Byte :=
  (List.range' s.pc.toNat (256 - s.pc.toNat)).map s.mem.read

/-- The fetch at a state sees a byte at an address, wherever the address falls in the instruction at `pc` (20_memory.md R44): as the
opcode it latches, or as an operand of the instruction it answers. -/
def FetchSees (cfg : Config) (s : State) (x v : Byte) : Prop :=
  (s.pc.toNat = x.toNat → (fetch cfg s).1.latch.ir = v) ∧
  ∀ i, (fetch cfg s).2 = .ok i → ∀ k, k < i.operands.length → s.pc.toNat + 1 + k = x.toNat → i.operands[k]? = some v

end Sys2Proof.Statement

open Sys2Proof.Statement

/-! ### Encoding and decoding -/

/-- 30_encoding.md R49: the table's rows, with the `n` and `c` of each byte. -/
def Obligations.OpcodeTableHasTheRowsOfTheSpec : Prop :=
  ∀ cfg : Config, ∀ r ∈ rows,
    opcodeTable cfg r.byte = (if r.optional && !cfg.enableSubDiv then none else some r.handler) ∧
    (operandCount r.byte).toNat = r.n ∧ setsPc r.byte = r.c

/-- Words written out from R49 (the programs W2, W3, W4, P1, P2, P3 and P6 of 95_test_vectors.md) decode to their instructions. -/
def Obligations.WordsOfTheSpecDecode : Prop :=
  ∀ w ∈ ([([0x82, 0x00, 0x08], .ldi 0 8), ([0x47, 0x00], .prn 0), ([0x01], .hlt), ([0xA2, 0x00, 0x01], .mul 0 1),
      ([0xA0, 0x00, 0x01], .add 0 1), ([0xA7, 0x00, 0x02], .cmp 0 2), ([0x45, 0x01], .push 1), ([0x46, 0x01], .pop 1),
      ([0x50, 0x01], .call 1), ([0x11], .ret), ([0x54, 0x02], .jmp 2), ([0x55, 0x03], .jeq 3), ([0x56, 0x03], .jne 3),
      ([0xA1, 0x01, 0x02], .sub 1 2), ([0xA3, 0x00, 0x01], .div 0 1)] : List (List Byte × Instr)),
    decode Config.default w.1 = .ok (w.2, [])

/-- 30_encoding.md R51: which bytes have no handler, how many, and what fetching one does. -/
def Obligations.BytesWithoutHandlerRaiseIllegalInstruction : Prop :=
  ∀ cfg : Config,
    (∀ ir, opcodeTable cfg ir = none ↔ ir ∉ handledBytes cfg) ∧
    ((List.range 256).filter (fun k => opcodeTable cfg (BitVec.ofNat 8 k) = none)).length =
      (if cfg.enableSubDiv then 241 else 243) ∧
    (∀ ir : Byte, 192 ≤ ir.toNat → opcodeTable cfg ir = none) ∧
    ∀ s : State, s.Running → s.pc.toNat < 256 → opcodeTable cfg (s.mem.read s.pc.toNat) = none →
      ∃ t, stepWith cfg s = .next t ∧ t.halted = true ∧ t.faultCause = 1 ∧
        t.faultInfo = zext9 (s.mem.read s.pc.toNat) ∧ ProgramStateKept s t

/-- 30_encoding.md R53: the decoder's outputs as functions of the byte and the parameter. -/
def Obligations.DecodeIsAFunctionOfTheByte : Prop :=
  ∀ (cfg : Config) (ir : Byte),
    (decodeOpcode cfg ir).n.toNat = ir.toNat / 64 ∧
    ((decodeOpcode cfg ir).c = true ↔ ir.toNat / 16 % 2 = 1) ∧
    (decodeOpcode cfg ir).handler = opcodeTable cfg ir ∧
    ((decodeOpcode cfg ir).handler ≠ none → (decodeOpcode cfg ir).n.toNat ≤ 2) ∧
    ∀ h, (decodeOpcode cfg ir).handler = some h →
      (h ∈ [Handler.add, .sub, .mul, .div, .cmp] → ∃ op, (decodeOpcode cfg ir).aluOp = some op ∧ op.toNat = ir.toNat % 16) ∧
      (h ∉ [Handler.add, .sub, .mul, .div, .cmp] → (decodeOpcode cfg ir).aluOp = none)

/-- Decoding the bytes of any instruction the parameter has gives it back, whatever follows, for every value of its operands. -/
def Obligations.DecodeOfEncodeIsTheInstruction : Prop :=
  ∀ (cfg : Config) (i : Instr) (rest : List Byte), i.WellFormed cfg → decode cfg (encode i ++ rest) = .ok (i, rest)

/-- Bytes that decode are the bytes of the instruction they decode to, which the parameter has (30_encoding.md R52). -/
def Obligations.EncodeOfDecodeIsTheBytes : Prop :=
  ∀ (cfg : Config) (bytes rest : List Byte) (i : Instr), decode cfg bytes = .ok (i, rest) →
    i.WellFormed cfg ∧ bytes = encode i ++ rest

/-- 30_encoding.md R46: the length of an instruction is told by `ir[7:6]` of its first byte alone. -/
def Obligations.FirstByteTellsTheLength : Prop :=
  ∀ (cfg : Config) (ir : Byte) (more rest : List Byte) (i : Instr), decode cfg (ir :: more) = .ok (i, rest) →
    more.length = rest.length + ir.toNat / 64 ∧ (encode i).length = ir.toNat / 64 + 1 ∧ ir.toNat / 64 ≤ 2

/-- 30_encoding.md R58: the assembly text of an instruction with its registers in range reads back as the instruction. The model's
choice of blanks and letter case is log 10. -/
def Obligations.AssemblyOfAnInstructionReadsBack : Prop :=
  ∀ (cfg : Config) (i : Instr), i.WellFormed cfg → i.RegsInRange → parseLine cfg (renderLine i) = some i

/-! ### The ALU on its own -/

/-- 40_alu.md R62, R63, R64. -/
def Obligations.AluAddSubMulWrapModulo256 : Prop :=
  ∀ A B : Byte, ∃ sum difference product : Byte,
    aluCore 0 A B = .result sum ∧ sum.toNat = (A.toNat + B.toNat) % 256 ∧
    aluCore 1 A B = .result difference ∧
      (B.toNat ≤ A.toNat → difference.toNat = A.toNat - B.toNat) ∧
      (A.toNat < B.toNat → difference.toNat = A.toNat + 256 - B.toNat) ∧
    aluCore 2 A B = .result product ∧ product.toNat = (A.toNat * B.toNat) % 256

/-- 40_alu.md R65. -/
def Obligations.AluDivIsFloorDivisionOrDivideByZero : Prop :=
  ∀ A B : Byte,
    (B.toNat = 0 → aluCore 3 A B = .divideByZero) ∧
    (B.toNat ≠ 0 → ∃ q : Byte, aluCore 3 A B = .result q ∧ q.toNat * B.toNat ≤ A.toNat ∧ A.toNat < (q.toNat + 1) * B.toNat)

/-- 40_alu.md R66: the flag triple of CMP, and that exactly one of the three is set. -/
def Obligations.AluCmpSetsExactlyOneFlag : Prop :=
  ∀ A B : Byte, ∃ f : Flags, aluCore 7 A B = .flags f ∧
    (f.e = true ↔ A.toNat = B.toNat) ∧ (f.l = true ↔ A.toNat < B.toNat) ∧ (f.g = true ↔ B.toNat < A.toNat) ∧
    f.e.toNat + f.l.toNat + f.g.toNat = 1

/-- 40_alu.md R67: any other select raises UnsupportedOperation of the select and writes nothing; the decoder never gives one. -/
def Obligations.AluRaisesUnsupportedOperationOnOtherSelects : Prop :=
  (∀ op : BitVec 4, op.toNat ∉ [0, 1, 2, 3, 7] →
    (∀ A B, aluCore op A B = .unsupported op ∧ (aluCore op A B).resWe = false ∧ (aluCore op A B).flWe = false) ∧
    ∀ (a b : Byte) (s : State), a.toNat < 8 → b.toNat < 8 →
      aluHandler op a b s = .error { cause := .unsupportedOperation, info := zext9 op }) ∧
  ∀ (cfg : Config) (ir : Byte) (op : BitVec 4), (decodeOpcode cfg ir).aluOp = some op → op.toNat ∈ [0, 1, 2, 3, 7]

/-! ### The arithmetic instructions: encoding, effect with its frame, faults -/

/-- ADD, 40_alu.md R68. -/
def Obligations.AddWritesTheSumModulo256 : Prop :=
  (∀ cfg a b, decode cfg [0xA0, a, b] = .ok (.add a b, [])) ∧
  (∀ (a b : Byte) (s : State) (ha : a.toNat < 8) (hb : b.toNat < 8), ∃ t, exec (.add a b) s = .next t ∧
    (t.reg ⟨a.toNat, ha⟩).toNat = ((s.reg ⟨a.toNat, ha⟩).toNat + (s.reg ⟨b.toNat, hb⟩).toNat) % 256 ∧
    t.pc = s.pc + 3 ∧ Frame [⟨a.toNat, ha⟩] [] s t) ∧
  ChecksBothIndices .add

/-- SUB, 40_alu.md R69. -/
def Obligations.SubWritesTheDifferenceModulo256 : Prop :=
  (∀ cfg a b, decode cfg [0xA1, a, b] =
    if cfg.enableSubDiv then .ok (.sub a b, []) else .error (.illegal 0xA1)) ∧
  (∀ s : State, s.Running → s.pc.toNat < 256 → s.mem.read s.pc.toNat = 0xA1 →
    ∃ t, stepWith { enableSubDiv := false } s = .next t ∧ t.halted = true ∧ t.faultCause = 1 ∧ t.faultInfo = 0xA1 ∧
      ProgramStateKept s t) ∧
  (∀ (a b : Byte) (s : State) (ha : a.toNat < 8) (hb : b.toNat < 8), ∃ t, exec (.sub a b) s = .next t ∧
    (t.reg ⟨a.toNat, ha⟩).toNat = ((s.reg ⟨a.toNat, ha⟩).toNat + 256 - (s.reg ⟨b.toNat, hb⟩).toNat) % 256 ∧
    t.pc = s.pc + 3 ∧ Frame [⟨a.toNat, ha⟩] [] s t) ∧
  ChecksBothIndices .sub

/-- MUL, 40_alu.md R70. -/
def Obligations.MulWritesTheLowByteOfTheProduct : Prop :=
  (∀ cfg a b, decode cfg [0xA2, a, b] = .ok (.mul a b, [])) ∧
  (∀ (a b : Byte) (s : State) (ha : a.toNat < 8) (hb : b.toNat < 8), ∃ t, exec (.mul a b) s = .next t ∧
    (t.reg ⟨a.toNat, ha⟩).toNat = ((s.reg ⟨a.toNat, ha⟩).toNat * (s.reg ⟨b.toNat, hb⟩).toNat) % 256 ∧
    t.pc = s.pc + 3 ∧ Frame [⟨a.toNat, ha⟩] [] s t) ∧
  ChecksBothIndices .mul

/-- DIV, 40_alu.md R71. -/
def Obligations.DivWritesTheQuotientOrRaisesDivideByZero : Prop :=
  (∀ cfg a b, decode cfg [0xA3, a, b] =
    if cfg.enableSubDiv then .ok (.div a b, []) else .error (.illegal 0xA3)) ∧
  (∀ s : State, s.Running → s.pc.toNat < 256 → s.mem.read s.pc.toNat = 0xA3 →
    ∃ t, stepWith { enableSubDiv := false } s = .next t ∧ t.halted = true ∧ t.faultCause = 1 ∧ t.faultInfo = 0xA3 ∧
      ProgramStateKept s t) ∧
  (∀ (a b : Byte) (s : State) (ha : a.toNat < 8) (hb : b.toNat < 8), s.reg ⟨b.toNat, hb⟩ ≠ 0 →
    ∃ t, exec (.div a b) s = .next t ∧
      (t.reg ⟨a.toNat, ha⟩).toNat = (s.reg ⟨a.toNat, ha⟩).toNat / (s.reg ⟨b.toNat, hb⟩).toNat ∧
      t.pc = s.pc + 3 ∧ Frame [⟨a.toNat, ha⟩] [] s t) ∧
  (∀ (a b : Byte) (s : State) (hb : b.toNat < 8), a.toNat < 8 → s.reg ⟨b.toNat, hb⟩ = 0 →
    RaisesAt (.div a b) s 3 (zext9 b)) ∧
  ChecksBothIndices .div

/-- CMP, 40_alu.md R72: it writes the three flags and no register. -/
def Obligations.CmpWritesTheThreeFlags : Prop :=
  (∀ cfg a b, decode cfg [0xA7, a, b] = .ok (.cmp a b, [])) ∧
  (∀ (a b : Byte) (s : State) (ha : a.toNat < 8) (hb : b.toNat < 8), ∃ t, exec (.cmp a b) s = .next t ∧
    (t.fl.e = true ↔ (s.reg ⟨a.toNat, ha⟩).toNat = (s.reg ⟨b.toNat, hb⟩).toNat) ∧
    (t.fl.l = true ↔ (s.reg ⟨a.toNat, ha⟩).toNat < (s.reg ⟨b.toNat, hb⟩).toNat) ∧
    (t.fl.g = true ↔ (s.reg ⟨b.toNat, hb⟩).toNat < (s.reg ⟨a.toNat, ha⟩).toNat) ∧
    t.fl.e.toNat + t.fl.l.toNat + t.fl.g.toNat = 1 ∧
    t.pc = s.pc + 3 ∧ RegsKeptBut [] s t ∧ MemKeptBut [] s t ∧ StatusKept s t ∧ t.output = s.output ∧ t.latch = s.latch) ∧
  ChecksBothIndices .cmp

/-! ### Load, print and halt -/

/-- LDI, 41_load_print_halt.md R73. -/
def Obligations.LdiWritesTheImmediate : Prop :=
  (∀ cfg a imm, decode cfg [0x82, a, imm] = .ok (.ldi a imm, [])) ∧
  (∀ (a imm : Byte) (s : State) (ha : a.toNat < 8), ∃ t, exec (.ldi a imm) s = .next t ∧
    t.reg ⟨a.toNat, ha⟩ = imm ∧ t.pc = s.pc + 3 ∧ Frame [⟨a.toNat, ha⟩] [] s t) ∧
  ∀ (a imm : Byte) (s : State), 8 ≤ a.toNat → RaisesAt (.ldi a imm) s 2 (zext9 a)

/-- PRN, 41_load_print_halt.md R74: one value is appended to the output stream and shown once on the output port, and the host's text
gains that value's decimal digits and one line end (whichever characters that is: log 15). -/
def Obligations.PrnAppendsTheRegisterToTheOutput : Prop :=
  (∀ cfg a, decode cfg [0x47, a] = .ok (.prn a, [])) ∧
  (∀ (a : Byte) (s : State) (ha : a.toNat < 8), ∃ t, exec (.prn a) s = .next t ∧
    t.output = s.output ++ [s.reg ⟨a.toNat, ha⟩] ∧ outputPort s t = some (s.reg ⟨a.toNat, ha⟩) ∧
    renderOutput t.output = renderOutput s.output ++ Nat.toDigits 10 (s.reg ⟨a.toNat, ha⟩).toNat ++ lineEnd ∧
    t.pc = s.pc + 2 ∧ RegsKeptBut [] s t ∧ MemKeptBut [] s t ∧ t.fl = s.fl ∧ StatusKept s t ∧ t.latch = s.latch) ∧
  ChecksIndex .prn

/-- HLT, 41_load_print_halt.md R75; the last clause is "no further step is taken": no run changes the state again. -/
def Obligations.HltHaltsAndAdvancesByOne : Prop :=
  (∀ cfg, decode cfg [0x01] = .ok (.hlt, [])) ∧
  ∀ s : State, ∃ t, exec .hlt s = .next t ∧ t.halted = true ∧ t.pc = s.pc + 1 ∧
    t.faultCause = s.faultCause ∧ t.faultInfo = s.faultInfo ∧
    RegsKeptBut [] s t ∧ MemKeptBut [] s t ∧ t.fl = s.fl ∧ t.output = s.output ∧ t.latch = s.latch ∧
    ∀ cfg k, runWith cfg k t = t

/-! ### Stack -/

/-- PUSH, 42_stack.md R78. -/
def Obligations.PushDecrementsSpAndStores : Prop :=
  (∀ cfg a, decode cfg [0x45, a] = .ok (.push a, [])) ∧
  (∀ (a : Byte) (s : State) (ha : a.toNat < 8), ∃ t, exec (.push a) s = .next t ∧
    t.sp.toNat = (s.sp.toNat + 255) % 256 ∧
    t.readByte s.decSp.sp = (if a.toNat = 7 then s.decSp.sp else s.reg ⟨a.toNat, ha⟩) ∧ t.sp = s.decSp.sp ∧
    t.pc = s.pc + 2 ∧ Frame [7] [s.decSp.sp] s t) ∧
  ChecksIndex .push

/-- POP, 42_stack.md R79. -/
def Obligations.PopLoadsAndIncrementsSp : Prop :=
  (∀ cfg a, decode cfg [0x46, a] = .ok (.pop a, [])) ∧
  (∀ (a : Byte) (s : State) (ha : a.toNat < 8), ∃ t, exec (.pop a) s = .next t ∧
    (a.toNat ≠ 7 → t.reg ⟨a.toNat, ha⟩ = s.readByte s.sp ∧ t.sp.toNat = (s.sp.toNat + 1) % 256) ∧
    (a.toNat = 7 → t.sp.toNat = ((s.readByte s.sp).toNat + 1) % 256) ∧
    t.pc = s.pc + 2 ∧ Frame [⟨a.toNat, ha⟩, 7] [] s t) ∧
  ChecksIndex .pop

/-- The property of 42_stack.md R78's corner cases: PUSH then POP of the same register restores it and SP, R7 included. -/
def Obligations.PushThenPopRestoresRegisterAndSp : Prop :=
  ∀ (a : Byte) (s : State), a.toNat < 8 →
    ∃ t u, exec (.push a) s = .next t ∧ exec (.pop a) t = .next u ∧ RegsKeptBut [] s u ∧ u.pc = s.pc + 4

/-! ### Control transfer -/

/-- CALL, 43_control_transfer.md R81, for the values `pc` can reach (10_state.md R22). -/
def Obligations.CallPushesReturnAddressAndJumps : Prop :=
  (∀ cfg a, decode cfg [0x50, a] = .ok (.call a, [])) ∧
  (∀ (a : Byte) (s : State) (ha : a.toNat < 8), s.pc.toNat < 254 → ∃ t, exec (.call a) s = .next t ∧
    t.sp = s.decSp.sp ∧ t.sp.toNat = (s.sp.toNat + 255) % 256 ∧
    (t.readByte s.decSp.sp).toNat = s.pc.toNat + 2 ∧
    t.pc = zext9 (if a.toNat = 7 then s.decSp.sp else s.reg ⟨a.toNat, ha⟩) ∧ Frame [7] [s.decSp.sp] s t) ∧
  (∀ (a : Byte) (s : State), a.toNat < 8 → 254 ≤ s.pc.toNat → s.pc.toNat ≤ 258 →
    RaisesAt (.call a) s 2 (BitVec.ofNat 9 (s.pc.toNat + 2))) ∧
  ChecksIndex .call

/-- RET, 43_control_transfer.md R82. -/
def Obligations.RetPopsThePc : Prop :=
  (∀ cfg, decode cfg [0x11] = .ok (.ret, [])) ∧
  ∀ s : State, ∃ t, exec .ret s = .next t ∧ t.pc = zext9 (s.readByte s.sp) ∧ t.sp.toNat = (s.sp.toNat + 1) % 256 ∧
    Frame [7] [] s t

/-- The property of 43_control_transfer.md R82: a RET resumes after the CALL and restores SP, when the subroutine leaves SP and the
byte at SP as CALL left them. -/
def Obligations.RetResumesAfterTheCall : Prop :=
  ∀ (a : Byte) (s : State), a.toNat < 8 → s.pc.toNat < 254 →
    ∃ t, exec (.call a) s = .next t ∧
      ∀ v : State, v.sp = t.sp → v.readByte v.sp = t.readByte t.sp →
        ∃ u, exec .ret v = .next u ∧ u.pc = s.pc + 2 ∧ u.sp = s.sp

/-- JMP, 43_control_transfer.md R83. -/
def Obligations.JmpSetsThePc : Prop :=
  (∀ cfg a, decode cfg [0x54, a] = .ok (.jmp a, [])) ∧
  (∀ (a : Byte) (s : State) (ha : a.toNat < 8), ∃ t, exec (.jmp a) s = .next t ∧
    t.pc = zext9 (s.reg ⟨a.toNat, ha⟩) ∧ Frame [] [] s t) ∧
  ChecksIndex .jmp

/-- JEQ, 43_control_transfer.md R84. -/
def Obligations.JeqJumpsWhenEqualIsSet : Prop :=
  (∀ cfg a, decode cfg [0x55, a] = .ok (.jeq a, [])) ∧
  (∀ (a : Byte) (s : State) (ha : a.toNat < 8), ∃ t, exec (.jeq a) s = .next t ∧
    (s.fl.e = true → t.pc = zext9 (s.reg ⟨a.toNat, ha⟩)) ∧ (s.fl.e = false → t.pc = s.pc + 2) ∧ Frame [] [] s t) ∧
  ChecksIndex .jeq

/-- JNE, 43_control_transfer.md R85. -/
def Obligations.JneJumpsWhenEqualIsClear : Prop :=
  (∀ cfg a, decode cfg [0x56, a] = .ok (.jne a, [])) ∧
  (∀ (a : Byte) (s : State) (ha : a.toNat < 8), ∃ t, exec (.jne a) s = .next t ∧
    (s.fl.e = false → t.pc = zext9 (s.reg ⟨a.toNat, ha⟩)) ∧ (s.fl.e = true → t.pc = s.pc + 2) ∧ Frame [] [] s t) ∧
  ChecksIndex .jne

/-! ### Whole-machine rules about instructions -/

/-- 00_scope.md R14: the whole operand byte is compared with 8, and the first register operand out of range is the fault of any
instruction that has one. -/
def Obligations.RegisterIndexOfEightOrMoreRaisesOutOfBounds : Prop :=
  (∀ i : Byte, 8 ≤ i.toNat → checkReg i = .error { cause := .outOfBounds, info := zext9 i }) ∧
  (∀ (i : Byte) (h : i.toNat < 8), checkReg i = .ok ⟨i.toNat, h⟩) ∧
  ∀ (i : Instr) (s : State) (r : Byte), i.regOperands.find? (fun r => 8 ≤ r.toNat) = some r → RaisesAt i s 2 (zext9 r)

/-- The table of 10_state.md R20, which the spec marks as derived from the instruction rules. A register an instruction does not write
it keeps. A register it does not read changes nothing but itself, and not even itself where the instruction writes it: LDI and POP do
not read their destination. -/
def Obligations.RegistersReadAndWrittenAreTheListedOnes : Prop :=
  (∀ (i : Instr) (s t : State), exec i s = .next t → ∀ k : Fin 8, k.val ∉ writesRegs i → t.reg k = s.reg k) ∧
  ∀ (i : Instr) (s : State) (k : Fin 8) (v : Byte), k.val ∉ readsRegs i →
    ∃ t u, exec i s = .next t ∧ exec i (s.writeReg k v) = .next u ∧
      (∀ j, j ≠ k ∨ k.val ∈ writesRegs i → u.reg j = t.reg j) ∧
      u = { t with regs := u.regs }

/-- 10_state.md R25: only CMP writes FL, only JEQ and JNE read it, and they read FL.E alone; all three flags are 0 at reset. CMP is the
same whatever FL held, but that a CMP that raises OutOfBounds leaves FL as it was held. -/
def Obligations.OnlyCmpWritesFlagsAndOnlyJeqJneReadEqual : Prop :=
  (∀ (i : Instr) (s t : State), (∀ a b, i ≠ .cmp a b) → exec i s = .next t → t.fl = s.fl) ∧
  (∀ (a b : Byte) (s : State) (f : Flags),
    ((Instr.cmp a b).RegsInRange → exec (.cmp a b) (s.setFlags f) = exec (.cmp a b) s) ∧
    (¬ (Instr.cmp a b).RegsInRange → ∃ t, exec (.cmp a b) s = .next t ∧ exec (.cmp a b) (s.setFlags f) = .next (t.setFlags f))) ∧
  (∀ (i : Instr) (s : State) (f : Flags), (∀ a b, i ≠ .cmp a b) → ((∃ a, i = .jeq a ∨ i = .jne a) → f.e = s.fl.e) →
    ∃ t, exec i s = .next t ∧ exec i (s.setFlags f) = .next (t.setFlags f)) ∧
  (∀ (a b : Byte) (s t : State), (Instr.cmp a b).RegsInRange → exec (.cmp a b) s = .next t →
    t.fl.e.toNat + t.fl.l.toNat + t.fl.g.toNat = 1) ∧
  State.reset.fl = { e := false, l := false, g := false } ∧
  ∀ (a : Byte) (s : State) (ha : a.toNat < 8), s.fl = State.reset.fl →
    (∃ t, exec (.jeq a) s = .next t ∧ t.pc = s.pc + 2) ∧ ∃ t, exec (.jne a) s = .next t ∧ t.pc = zext9 (s.reg ⟨a.toNat, ha⟩)

/-- 20_memory.md R36: PUSH and CALL store one byte, at `x[7]` after the decrement; no other instruction changes any byte. -/
def Obligations.OnlyPushAndCallStore : Prop :=
  ∀ (i : Instr) (s t : State), exec i s = .next t → MemKeptBut (storesAt i s) s t

/-- 41_load_print_halt.md R74, 60_exceptions.md R93: only PRN drives the output port, and with the register it names. -/
def Obligations.OnlyPrnDrivesTheOutputPort : Prop :=
  ∀ (i : Instr) (s t : State) (v : Byte), exec i s = .next t → outputPort s t = some v →
    ∃ (a : Byte) (ha : a.toNat < 8), i = .prn a ∧ v = s.reg ⟨a.toNat, ha⟩

/-- 30_encoding.md R56: after an instruction that raised nothing, `pc` is `pc + n + 1` when `c = 0`; after one that raised a fault,
`pc` is kept; when `c = 1` the pc update leaves the state the handler made. -/
def Obligations.PcAdvancesByNPlusOneUnlessTheHandlerSetsIt : Prop :=
  (∀ (s : State) (ir : Byte), setsPc ir = true → s.pcControl ir = s) ∧
  ∀ (i : Instr) (s t : State), s.faultCause = 0 → exec i s = .next t →
    (t.faultCause = 0 → setsPc i.handler.opcode = false → t.pc = s.pc + zext9 (operandCount i.handler.opcode) + 1 ∧
      (s.pc.toNat ≤ 255 → t.pc.toNat = s.pc.toNat + (operandCount i.handler.opcode).toNat + 1 ∧ t.pc.toNat ≤ 258)) ∧
    (t.faultCause ≠ 0 → t.pc = s.pc)

/-- 10_state.md R28: no rule reads a latch before the fetch that sets it. From two states that differ in the latches only, a step
answers next states that differ in the latches only, so nothing but a latch can rest on their reset value, the model's choice (log 2).
That a halted block answers a next state is the model's choice too (log 1). -/
def Obligations.StepDoesNotDependOnTheLatches : Prop :=
  ∀ (cfg : Config) (s : State) (l : Latches), ∃ t l', stepWith cfg s = .next t ∧
    stepWith cfg { s with latch := l } = .next { t with latch := l' }

/-! ### Memory -/

/-- 20_memory.md R34: an access outside 0..255 raises OutOfBounds of the address and does nothing else; one inside does not fault, and
so no access at the stack top does. -/
def Obligations.AccessOutsideMemoryRaisesOutOfBounds : Prop :=
  (∀ (s : State) (addr : Addr) (v : Byte), 256 ≤ addr.toNat →
    s.memRead addr = .error { cause := .outOfBounds, info := addr } ∧
    s.memWrite addr v = .error { cause := .outOfBounds, info := addr }) ∧
  (∀ (s : State) (addr : Addr) (v : Byte), addr.toNat < 256 →
    s.memRead addr = .ok (s.mem.read addr.toNat) ∧ s.memWrite addr v = .ok { s with mem := s.mem.write addr.toNat v }) ∧
  ∀ (s : State) (v : Byte), s.readTop = .ok (s.mem.read s.sp.toNat) ∧ ∃ t, s.writeTop v = .ok t

/-- 20_memory.md R39: a read after a write sees the byte written at that address and the old byte at every other; the write keeps
the canonical form. -/
def Obligations.WriteChangesExactlyOneByte : Prop :=
  ∀ (m : Memory) (a : Nat) (v : Byte),
    (m.write a v).read a = v ∧ (∀ x, x ≠ a → (m.write a v).read x = m.read x) ∧
    (m.wf = true → a < 256 → (m.write a v).wf = true)

/-- Memories in canonical form that read alike at the 256 addresses are equal data. -/
def Obligations.CanonicalMemoriesThatReadAlikeAreEqual : Prop :=
  ∀ m m' : Memory, m.wf = true → m'.wf = true → (∀ a, a < 256 → m.read a = m'.read a) → m = m'

/-- 20_memory.md R44: the byte a PUSH (of R7 too) or a CALL stores is the one the very next fetch sees, whichever byte of the next
instruction it is. For CALL the bound on `pc` is where it pushes (43_control_transfer.md R81). -/
def Obligations.StoredByteIsFetchedByTheNextStep : Prop :=
  (∀ (cfg : Config) (s : State) (a : Byte) (ha : a.toNat < 8) (rest : List Byte), s.Running →
    decode cfg (bytesFromPc s) = .ok (.push a, rest) →
    ∃ t, stepWith cfg s = .next t ∧ t.Running ∧
      FetchSees cfg t s.decSp.sp (if a.toNat = 7 then s.decSp.sp else s.reg ⟨a.toNat, ha⟩)) ∧
  ∀ (cfg : Config) (s : State) (a : Byte) (rest : List Byte), a.toNat < 8 → s.pc.toNat < 254 → s.Running →
    decode cfg (bytesFromPc s) = .ok (.call a, rest) →
    ∃ t, stepWith cfg s = .next t ∧ t.Running ∧ FetchSees cfg t s.decSp.sp (BitVec.ofNat 8 (s.pc.toNat + 2))

/-- 20_memory.md R36, R42, 00_scope.md R9: the writes on the memory port are the whole change of memory over a step, and every read on
it returns the byte memory holds at its address before the step. A halted block makes no access; that its step answers a next state is
the model's choice (log 1). -/
def Obligations.MemoryPortWritesAreTheWholeChangeOfMemory : Prop :=
  (∀ (cfg : Config) (s t : State), stepWith cfg s = .next t → t.mem = s.mem.replay (accesses cfg s)) ∧
  ∀ (cfg : Config) (s : State) (x v : Byte), Access.read x v ∈ accesses cfg s → v = s.readByte x

/-- 20_memory.md R36, R39: a step depends on memory only through its reads on the memory port: any other memory that holds the byte
each read returned gives the same step, with the same writes done to it. For a halted block that makes no access and answers a next
state, which is the model's choice (log 1), it says that memory stays. -/
def Obligations.BytesNotReadDoNotMatter : Prop :=
  ∀ (cfg : Config) (s : State) (m : Memory),
    (∀ x v : Byte, Access.read x v ∈ accesses cfg s → m.read x.toNat = v) →
    ∃ t, stepWith cfg s = .next t ∧
      stepWith cfg { s with mem := m } = .next { t with mem := m.replay (accesses cfg s) }

/-! ### The step, faults and halting -/

/-- 30_encoding.md R57: when the bytes at `pc` decode to an instruction, a step of the running block is that instruction run at the
state with the latches set by its fetch. That an absent operand leaves its latch, and that the latches hold past the step, is the
model's (log 2). -/
def Obligations.StepRunsTheDecodedInstruction : Prop :=
  (∀ (cfg : Config) (s : State) (i : Instr) (rest : List Byte), s.Running → decode cfg (bytesFromPc s) = .ok (i, rest) →
    stepWith cfg s = exec i { s with latch := latchesOf i s.latch }) ∧
  ∀ s, step s = stepWith Config.default s

/-- Every step answers a next state (93_implementation_defined.md: a program that never halts is a hang, not stuck). For the halted
block this is the model's choice, log 1. -/
def Obligations.StepAlwaysAnswersANextState : Prop :=
  ∀ (cfg : Config) (s : State), ∃ t, stepWith cfg s = .next t

/-- 60_exceptions.md R89: a step of the running block takes the first failing check of the list, and no fault when none fails. -/
def Obligations.TheFirstFailingCheckIsTheFaultTaken : Prop :=
  ∀ (cfg : Config) (s : State), s.Running → ∃ t, stepWith cfg s = .next t ∧
    (∀ code info, firstFailingCheck cfg s = some (code, info) →
      t.faultCause = code ∧ t.faultInfo = info ∧ t.halted = true ∧ ProgramStateKept s t) ∧
    (firstFailingCheck cfg s = none → t.faultCause = s.faultCause ∧ t.faultInfo = s.faultInfo)

/-- 60_exceptions.md R87: a step that faults writes the failing check's code and value and HALTED, leaves every register, `pc`, FL, memory
and the output stream as they were, and no further step changes anything. -/
def Obligations.FaultsArePreciseAndTerminal : Prop :=
  ∀ (cfg : Config) (s t : State), s.Running → s.faultCause = 0 → stepWith cfg s = .next t → t.faultCause ≠ 0 →
    t.halted = true ∧ firstFailingCheck cfg s = some (t.faultCause, t.faultInfo) ∧ ProgramStateKept s t ∧
    ∀ cfg' k, runWith cfg' k t = t

/-- 10_state.md R26: a halted block changes no state, however often it is stepped. That the step answers the same state, and not a
stop, is the model's choice, log 1. -/
def Obligations.HaltedBlockChangesNoState : Prop :=
  ∀ (cfg : Config) (s : State), s.halted = true →
    stepWith cfg s = .next s ∧ (∀ k, runWith cfg k s = s) ∧ accesses cfg s = [] ∧ (statusPort s).halted = 1

/-- 70_reset_and_hazards.md R101, 10_state.md R26: a step of the running block halts it by HLT, with FAULT_CAUSE left NONE, or by a
fault, and by nothing else. -/
def Obligations.OnlyHltOrAFaultHalts : Prop :=
  ∀ (cfg : Config) (s t : State), s.Running → s.faultCause = 0 → stepWith cfg s = .next t →
    (t.HaltedNormally → s.pc.toNat < 256 ∧ s.mem.read s.pc.toNat = 0x01) ∧
    (t.faultCause ≠ 0 → t.halted = true) ∧
    (s.pc.toNat < 256 → s.mem.read s.pc.toNat = 0x01 → t.HaltedNormally)

/-- 00_scope.md R8: ENABLE_SUB_DIV matters to the opcodes 0xA1 and 0xA3 only. -/
def Obligations.TheParameterMattersToSubAndDivOnly : Prop :=
  ∀ (cfg cfg' : Config) (s : State), s.mem.read s.pc.toNat ≠ 0xA1 → s.mem.read s.pc.toNat ≠ 0xA3 →
    stepWith cfg s = stepWith cfg' s

/-! ### Reset, load and the invariant -/

/-- 70_reset_and_hazards.md R97: the reset state (the latches, which it leaves unspecified, apart), and that no step leaves Halted. -/
def Obligations.ResetStateIsTheSpecs : Prop :=
  (∀ k : Fin 8, State.reset.reg k = if k = 7 then 0xF4 else 0) ∧ State.reset.pc = 0 ∧
  State.reset.fl = { e := false, l := false, g := false } ∧ State.reset.halted = false ∧
  State.reset.faultCause = 0 ∧ State.reset.faultInfo = 0 ∧ (∀ a, State.reset.mem.read a = 0) ∧ State.reset.output = [] ∧
  ∀ (cfg : Config) (k : Nat) (s : State), s.halted = true → (runWith cfg k s).halted = true

/-- 70_reset_and_hazards.md R98: the load's three failures in their order, and the image in memory. R98 loads after reset; that the
load is applied to any state, changing memory only and keeping the bytes past the image, or taking the failure there, is the model's
choice (log 6). -/
def Obligations.LoadStoresTheImageOrFails : Prop :=
  (∀ s, FaultTaken 5 1 s (load none s)) ∧
  (∀ (img : List Int) (s : State), 256 < img.length → FaultTaken 5 2 s (load (some img) s)) ∧
  (∀ (img : List Int) (s : State), img.length ≤ 256 → (∃ v ∈ img, v < 0 ∨ 255 < v) → FaultTaken 5 3 s (load (some img) s)) ∧
  (∀ (img : List Int) (s : State), img.length ≤ 256 → (∀ v ∈ img, 0 ≤ v ∧ v ≤ 255) →
    (∀ (k : Nat) (hk : k < img.length), ((load (some img) s).mem.read k).toNat = img[k]) ∧
    (∀ k, img.length ≤ k → (load (some img) s).mem.read k = s.mem.read k) ∧
    load (some img) s = { s with mem := (load (some img) s).mem }) ∧
  (∀ (img : Option (List Int)) (s : State) (cfg : Config) (k : Nat), (load img s).faultCause = 5 → s.faultCause ≠ 5 →
    runWith cfg k (load img s) = load img s) ∧
  ∀ cfg, ∃ t, stepWith cfg (boot (some [])) = .next t ∧ t.faultCause = 1 ∧ t.faultInfo = 0 ∧ t.pc = 0 ∧ t.halted = true

/-- The invariant holds at reset and after any load of a state that has it; a load of any such state is the model's choice (log 6). -/
def Obligations.ResetAndLoadHaveTheInvariant : Prop :=
  State.reset.Inv ∧ ∀ (img : Option (List Int)) (s : State), s.Inv → (load img s).Inv

/-- Every step keeps the invariant: canonical memory, `pc` in 0..258 (10_state.md R22), at most one flag set (R25), and a fault
status of the table of 60_exceptions.md R86 whose fault has halted the block (R87). -/
def Obligations.StepKeepsTheInvariant : Prop :=
  (∀ (cfg : Config) (s t : State), s.Inv → stepWith cfg s = .next t → t.Inv) ∧
  ∀ s t : State, s.Inv → step s = .next t → t.Inv

/-- The model's choice of how a word is placed for the next fetch (log 6), and of the latches (log 2): the step after the placing runs
the instruction the word decodes to, wherever all its bytes are below 256; where they are not, the step raises OutOfBounds of address
256, or of a `pc` past memory (30_encoding.md R54). -/
def Obligations.StepRunsThePlacedWord : Prop :=
  ∀ (s : State) (nbits w : Nat) (i : Instr), decodeTableWord nbits w = some i →
    (s.pc.toNat + i.operands.length < 256 →
      step (s.withFetchWord nbits w) = exec i { s.withFetchWord nbits w with latch := latchesOf i s.latch }) ∧
    (s.pc.toNat < 256 → 256 ≤ s.pc.toNat + i.operands.length →
      ∃ t, step (s.withFetchWord nbits w) = .next t ∧ t.faultCause = 2 ∧ t.faultInfo = 256 ∧ t.halted = true) ∧
    (256 ≤ s.pc.toNat →
      ∃ t, step (s.withFetchWord nbits w) = .next t ∧ t.faultCause = 2 ∧ t.faultInfo = s.pc ∧ t.halted = true)
end

