-- ==== Sys2Proof/Laws/PerInstr.lean ====
section
/-! SUPPORT. What is said of every instruction as syntax, one lemma per constructor. -/

namespace Sys2Proof.Laws

/-- The number of operand bytes of a handler (the `n` column of 30_encoding.md R49). -/
def operandNumber : Handler → Nat
  | .ldi => 2 | .prn => 1 | .hlt => 0 | .mul => 2 | .add => 2 | .cmp => 2 | .push => 1 | .pop => 1
  | .call => 1 | .ret => 0 | .jmp => 1 | .jeq => 1 | .jne => 1 | .sub => 2 | .div => 2

theorem operandCount_opcode (h : Handler) : (operandCount h.opcode).toNat = operandNumber h := by
  cases h <;> decide

/-- The five control transfers are the opcodes with `c = 1` (30_encoding.md R50). -/
theorem setsPc_opcode (h : Handler) :
    setsPc h.opcode = true ↔ h = .call ∨ h = .ret ∨ h = .jmp ∨ h = .jeq ∨ h = .jne := by
  cases h <;> decide

/-- The framing of an instruction's bytes (30_encoding.md R46, R53): under any parameter that has the instruction, its opcode byte is
looked up to its handler, the byte's `n` is the number of its operand bytes, and the handler with those bytes gives it back. -/
def Framing.Statement (i : Instr) : Prop :=
  ∀ cfg, i.WellFormed cfg →
    opcodeTable cfg i.handler.opcode = some i.handler ∧
    (operandCount i.handler.opcode).toNat = i.operands.length ∧
    i.handler.instr (i.operands.getD 0 0) (i.operands.getD 1 0) = i

theorem Framing.ldi (a b : Byte) : Framing.Statement (.ldi a b) :=
  fun _ _ => ⟨rfl, operandCount_opcode .ldi, rfl⟩

theorem Framing.prn (a : Byte) : Framing.Statement (.prn a) :=
  fun _ _ => ⟨rfl, operandCount_opcode .prn, rfl⟩

theorem Framing.hlt : Framing.Statement .hlt :=
  fun _ _ => ⟨rfl, operandCount_opcode .hlt, rfl⟩

theorem Framing.mul (a b : Byte) : Framing.Statement (.mul a b) :=
  fun _ _ => ⟨rfl, operandCount_opcode .mul, rfl⟩

theorem Framing.add (a b : Byte) : Framing.Statement (.add a b) :=
  fun _ _ => ⟨rfl, operandCount_opcode .add, rfl⟩

theorem Framing.cmp (a b : Byte) : Framing.Statement (.cmp a b) :=
  fun _ _ => ⟨rfl, operandCount_opcode .cmp, rfl⟩

theorem Framing.push (a : Byte) : Framing.Statement (.push a) :=
  fun _ _ => ⟨rfl, operandCount_opcode .push, rfl⟩

theorem Framing.pop (a : Byte) : Framing.Statement (.pop a) :=
  fun _ _ => ⟨rfl, operandCount_opcode .pop, rfl⟩

theorem Framing.call (a : Byte) : Framing.Statement (.call a) :=
  fun _ _ => ⟨rfl, operandCount_opcode .call, rfl⟩

theorem Framing.ret : Framing.Statement .ret :=
  fun _ _ => ⟨rfl, operandCount_opcode .ret, rfl⟩

theorem Framing.jmp (a : Byte) : Framing.Statement (.jmp a) :=
  fun _ _ => ⟨rfl, operandCount_opcode .jmp, rfl⟩

theorem Framing.jeq (a : Byte) : Framing.Statement (.jeq a) :=
  fun _ _ => ⟨rfl, operandCount_opcode .jeq, rfl⟩

theorem Framing.jne (a : Byte) : Framing.Statement (.jne a) :=
  fun _ _ => ⟨rfl, operandCount_opcode .jne, rfl⟩

theorem Framing.sub (a b : Byte) : Framing.Statement (.sub a b) :=
  fun cfg h => ⟨by simp only [Instr.WellFormed, Instr.inTable] at h; simp [opcodeTable, Instr.handler, Handler.opcode, h], operandCount_opcode .sub, rfl⟩

theorem Framing.div (a b : Byte) : Framing.Statement (.div a b) :=
  fun cfg h => ⟨by simp only [Instr.WellFormed, Instr.inTable] at h; simp [opcodeTable, Instr.handler, Handler.opcode, h], operandCount_opcode .div, rfl⟩

end Sys2Proof.Laws
end

