-- ==== Sys2Proof/Laws/Decode.lean ====
section
/-! SUPPORT. The opcode table and the handlers' opcodes invert each other. -/

namespace Sys2Proof.Laws

/-- A byte that has a handler is that handler's opcode, and SUB and DIV have one only under ENABLE_SUB_DIV (30_encoding.md R49). -/
theorem opcodeTable_some {cfg : Config} {ir : Byte} {h : Handler} (e : opcodeTable cfg ir = some h) :
    ir = h.opcode ∧ ((h = .sub ∨ h = .div) → cfg.enableSubDiv = true) := by
  have all : ∀ (b : Bool) (ir : Byte), (opcodeTable ⟨b⟩ ir).all
      (fun h => ir = h.opcode ∧ ((h = .sub ∨ h = .div) → b = true)) = true := by decide +kernel
  have := all cfg.enableSubDiv ir
  rw [show (⟨cfg.enableSubDiv⟩ : Config) = cfg from rfl, e] at this
  simpa [imp_iff_not_or] using this

/-- The opcode of an instruction the parameter has is looked up to its handler. -/
theorem opcodeTable_opcode {cfg : Config} {i : Instr} (h : i.WellFormed cfg) :
    opcodeTable cfg i.handler.opcode = some i.handler := by
  obtain ⟨b⟩ := cfg
  cases i <;> cases b <;> first | rfl | simp [Instr.WellFormed, Instr.inTable] at h

end Sys2Proof.Laws
end

