-- ==== Sys2Proof/Laws/State.lean ====
section
/-! SUPPORT. One lemma per field per update of the state, and what `reg`, `sp` and `readByte` read after each update, so that no
later proof unfolds a record update. -/

namespace Sys2Proof.Machine

/-! ### writeReg -/

@[simp] theorem State.writeReg_regs (s : State) (k : Fin 8) (v : Byte) : (s.writeReg k v).regs = s.regs.set k v := rfl
@[simp] theorem State.writeReg_pc (s : State) (k : Fin 8) (v : Byte) : (s.writeReg k v).pc = s.pc := rfl
@[simp] theorem State.writeReg_fl (s : State) (k : Fin 8) (v : Byte) : (s.writeReg k v).fl = s.fl := rfl
@[simp] theorem State.writeReg_halted (s : State) (k : Fin 8) (v : Byte) : (s.writeReg k v).halted = s.halted := rfl
@[simp] theorem State.writeReg_faultCause (s : State) (k : Fin 8) (v : Byte) : (s.writeReg k v).faultCause = s.faultCause := rfl
@[simp] theorem State.writeReg_faultInfo (s : State) (k : Fin 8) (v : Byte) : (s.writeReg k v).faultInfo = s.faultInfo := rfl
@[simp] theorem State.writeReg_mem (s : State) (k : Fin 8) (v : Byte) : (s.writeReg k v).mem = s.mem := rfl
@[simp] theorem State.writeReg_output (s : State) (k : Fin 8) (v : Byte) : (s.writeReg k v).output = s.output := rfl
@[simp] theorem State.writeReg_latch (s : State) (k : Fin 8) (v : Byte) : (s.writeReg k v).latch = s.latch := rfl

/-! ### setPc -/

@[simp] theorem State.setPc_regs (s : State) (p : Addr) : (s.setPc p).regs = s.regs := rfl
@[simp] theorem State.setPc_pc (s : State) (p : Addr) : (s.setPc p).pc = p := rfl
@[simp] theorem State.setPc_fl (s : State) (p : Addr) : (s.setPc p).fl = s.fl := rfl
@[simp] theorem State.setPc_halted (s : State) (p : Addr) : (s.setPc p).halted = s.halted := rfl
@[simp] theorem State.setPc_faultCause (s : State) (p : Addr) : (s.setPc p).faultCause = s.faultCause := rfl
@[simp] theorem State.setPc_faultInfo (s : State) (p : Addr) : (s.setPc p).faultInfo = s.faultInfo := rfl
@[simp] theorem State.setPc_mem (s : State) (p : Addr) : (s.setPc p).mem = s.mem := rfl
@[simp] theorem State.setPc_output (s : State) (p : Addr) : (s.setPc p).output = s.output := rfl
@[simp] theorem State.setPc_latch (s : State) (p : Addr) : (s.setPc p).latch = s.latch := rfl

/-! ### setFlags -/

@[simp] theorem State.setFlags_regs (s : State) (f : Flags) : (s.setFlags f).regs = s.regs := rfl
@[simp] theorem State.setFlags_pc (s : State) (f : Flags) : (s.setFlags f).pc = s.pc := rfl
@[simp] theorem State.setFlags_fl (s : State) (f : Flags) : (s.setFlags f).fl = f := rfl
@[simp] theorem State.setFlags_halted (s : State) (f : Flags) : (s.setFlags f).halted = s.halted := rfl
@[simp] theorem State.setFlags_faultCause (s : State) (f : Flags) : (s.setFlags f).faultCause = s.faultCause := rfl
@[simp] theorem State.setFlags_faultInfo (s : State) (f : Flags) : (s.setFlags f).faultInfo = s.faultInfo := rfl
@[simp] theorem State.setFlags_mem (s : State) (f : Flags) : (s.setFlags f).mem = s.mem := rfl
@[simp] theorem State.setFlags_output (s : State) (f : Flags) : (s.setFlags f).output = s.output := rfl
@[simp] theorem State.setFlags_latch (s : State) (f : Flags) : (s.setFlags f).latch = s.latch := rfl

/-! ### halt -/

@[simp] theorem State.halt_regs (s : State) : (s.halt).regs = s.regs := rfl
@[simp] theorem State.halt_pc (s : State) : (s.halt).pc = s.pc := rfl
@[simp] theorem State.halt_fl (s : State) : (s.halt).fl = s.fl := rfl
@[simp] theorem State.halt_halted (s : State) : (s.halt).halted = true := rfl
@[simp] theorem State.halt_faultCause (s : State) : (s.halt).faultCause = s.faultCause := rfl
@[simp] theorem State.halt_faultInfo (s : State) : (s.halt).faultInfo = s.faultInfo := rfl
@[simp] theorem State.halt_mem (s : State) : (s.halt).mem = s.mem := rfl
@[simp] theorem State.halt_output (s : State) : (s.halt).output = s.output := rfl
@[simp] theorem State.halt_latch (s : State) : (s.halt).latch = s.latch := rfl

/-! ### emit -/

@[simp] theorem State.emit_regs (s : State) (v : Byte) : (s.emit v).regs = s.regs := rfl
@[simp] theorem State.emit_pc (s : State) (v : Byte) : (s.emit v).pc = s.pc := rfl
@[simp] theorem State.emit_fl (s : State) (v : Byte) : (s.emit v).fl = s.fl := rfl
@[simp] theorem State.emit_halted (s : State) (v : Byte) : (s.emit v).halted = s.halted := rfl
@[simp] theorem State.emit_faultCause (s : State) (v : Byte) : (s.emit v).faultCause = s.faultCause := rfl
@[simp] theorem State.emit_faultInfo (s : State) (v : Byte) : (s.emit v).faultInfo = s.faultInfo := rfl
@[simp] theorem State.emit_mem (s : State) (v : Byte) : (s.emit v).mem = s.mem := rfl
@[simp] theorem State.emit_output (s : State) (v : Byte) : (s.emit v).output = s.output ++ [v] := rfl
@[simp] theorem State.emit_latch (s : State) (v : Byte) : (s.emit v).latch = s.latch := rfl

/-! ### writeByte -/

@[simp] theorem State.writeByte_regs (s : State) (x v : Byte) : (s.writeByte x v).regs = s.regs := rfl
@[simp] theorem State.writeByte_pc (s : State) (x v : Byte) : (s.writeByte x v).pc = s.pc := rfl
@[simp] theorem State.writeByte_fl (s : State) (x v : Byte) : (s.writeByte x v).fl = s.fl := rfl
@[simp] theorem State.writeByte_halted (s : State) (x v : Byte) : (s.writeByte x v).halted = s.halted := rfl
@[simp] theorem State.writeByte_faultCause (s : State) (x v : Byte) : (s.writeByte x v).faultCause = s.faultCause := rfl
@[simp] theorem State.writeByte_faultInfo (s : State) (x v : Byte) : (s.writeByte x v).faultInfo = s.faultInfo := rfl
@[simp] theorem State.writeByte_mem (s : State) (x v : Byte) : (s.writeByte x v).mem = s.mem.write x.toNat v := rfl
@[simp] theorem State.writeByte_output (s : State) (x v : Byte) : (s.writeByte x v).output = s.output := rfl
@[simp] theorem State.writeByte_latch (s : State) (x v : Byte) : (s.writeByte x v).latch = s.latch := rfl

/-! ### decSp -/

@[simp] theorem State.decSp_regs (s : State) : (s.decSp).regs = s.regs.set Config.spIndex (s.sp - 1) := rfl
@[simp] theorem State.decSp_pc (s : State) : (s.decSp).pc = s.pc := rfl
@[simp] theorem State.decSp_fl (s : State) : (s.decSp).fl = s.fl := rfl
@[simp] theorem State.decSp_halted (s : State) : (s.decSp).halted = s.halted := rfl
@[simp] theorem State.decSp_faultCause (s : State) : (s.decSp).faultCause = s.faultCause := rfl
@[simp] theorem State.decSp_faultInfo (s : State) : (s.decSp).faultInfo = s.faultInfo := rfl
@[simp] theorem State.decSp_mem (s : State) : (s.decSp).mem = s.mem := rfl
@[simp] theorem State.decSp_output (s : State) : (s.decSp).output = s.output := rfl
@[simp] theorem State.decSp_latch (s : State) : (s.decSp).latch = s.latch := rfl

/-! ### incSp -/

@[simp] theorem State.incSp_regs (s : State) : (s.incSp).regs = s.regs.set Config.spIndex (s.sp + 1) := rfl
@[simp] theorem State.incSp_pc (s : State) : (s.incSp).pc = s.pc := rfl
@[simp] theorem State.incSp_fl (s : State) : (s.incSp).fl = s.fl := rfl
@[simp] theorem State.incSp_halted (s : State) : (s.incSp).halted = s.halted := rfl
@[simp] theorem State.incSp_faultCause (s : State) : (s.incSp).faultCause = s.faultCause := rfl
@[simp] theorem State.incSp_faultInfo (s : State) : (s.incSp).faultInfo = s.faultInfo := rfl
@[simp] theorem State.incSp_mem (s : State) : (s.incSp).mem = s.mem := rfl
@[simp] theorem State.incSp_output (s : State) : (s.incSp).output = s.output := rfl
@[simp] theorem State.incSp_latch (s : State) : (s.incSp).latch = s.latch := rfl

/-! ### latchOpcode -/

@[simp] theorem State.latchOpcode_regs (s : State) (ir : Byte) (d : Decoded) : (s.latchOpcode ir d).regs = s.regs := rfl
@[simp] theorem State.latchOpcode_pc (s : State) (ir : Byte) (d : Decoded) : (s.latchOpcode ir d).pc = s.pc := rfl
@[simp] theorem State.latchOpcode_fl (s : State) (ir : Byte) (d : Decoded) : (s.latchOpcode ir d).fl = s.fl := rfl
@[simp] theorem State.latchOpcode_halted (s : State) (ir : Byte) (d : Decoded) : (s.latchOpcode ir d).halted = s.halted := rfl
@[simp] theorem State.latchOpcode_faultCause (s : State) (ir : Byte) (d : Decoded) : (s.latchOpcode ir d).faultCause = s.faultCause := rfl
@[simp] theorem State.latchOpcode_faultInfo (s : State) (ir : Byte) (d : Decoded) : (s.latchOpcode ir d).faultInfo = s.faultInfo := rfl
@[simp] theorem State.latchOpcode_mem (s : State) (ir : Byte) (d : Decoded) : (s.latchOpcode ir d).mem = s.mem := rfl
@[simp] theorem State.latchOpcode_output (s : State) (ir : Byte) (d : Decoded) : (s.latchOpcode ir d).output = s.output := rfl
@[simp] theorem State.latchOpcode_latch (s : State) (ir : Byte) (d : Decoded) : (s.latchOpcode ir d).latch = { s.latch with ir := ir, n := d.n, c := d.c, h := d.handler } := rfl

/-! ### latchA -/

@[simp] theorem State.latchA_regs (s : State) (v : Byte) : (s.latchA v).regs = s.regs := rfl
@[simp] theorem State.latchA_pc (s : State) (v : Byte) : (s.latchA v).pc = s.pc := rfl
@[simp] theorem State.latchA_fl (s : State) (v : Byte) : (s.latchA v).fl = s.fl := rfl
@[simp] theorem State.latchA_halted (s : State) (v : Byte) : (s.latchA v).halted = s.halted := rfl
@[simp] theorem State.latchA_faultCause (s : State) (v : Byte) : (s.latchA v).faultCause = s.faultCause := rfl
@[simp] theorem State.latchA_faultInfo (s : State) (v : Byte) : (s.latchA v).faultInfo = s.faultInfo := rfl
@[simp] theorem State.latchA_mem (s : State) (v : Byte) : (s.latchA v).mem = s.mem := rfl
@[simp] theorem State.latchA_output (s : State) (v : Byte) : (s.latchA v).output = s.output := rfl
@[simp] theorem State.latchA_latch (s : State) (v : Byte) : (s.latchA v).latch = { s.latch with opA := v } := rfl

/-! ### latchB -/

@[simp] theorem State.latchB_regs (s : State) (v : Byte) : (s.latchB v).regs = s.regs := rfl
@[simp] theorem State.latchB_pc (s : State) (v : Byte) : (s.latchB v).pc = s.pc := rfl
@[simp] theorem State.latchB_fl (s : State) (v : Byte) : (s.latchB v).fl = s.fl := rfl
@[simp] theorem State.latchB_halted (s : State) (v : Byte) : (s.latchB v).halted = s.halted := rfl
@[simp] theorem State.latchB_faultCause (s : State) (v : Byte) : (s.latchB v).faultCause = s.faultCause := rfl
@[simp] theorem State.latchB_faultInfo (s : State) (v : Byte) : (s.latchB v).faultInfo = s.faultInfo := rfl
@[simp] theorem State.latchB_mem (s : State) (v : Byte) : (s.latchB v).mem = s.mem := rfl
@[simp] theorem State.latchB_output (s : State) (v : Byte) : (s.latchB v).output = s.output := rfl
@[simp] theorem State.latchB_latch (s : State) (v : Byte) : (s.latchB v).latch = { s.latch with opB := v } := rfl

/-! ### takeFault -/

@[simp] theorem State.takeFault_regs (s : State) (f : FaultRecord) : (s.takeFault f).regs = s.regs := rfl
@[simp] theorem State.takeFault_pc (s : State) (f : FaultRecord) : (s.takeFault f).pc = s.pc := rfl
@[simp] theorem State.takeFault_fl (s : State) (f : FaultRecord) : (s.takeFault f).fl = s.fl := rfl
@[simp] theorem State.takeFault_halted (s : State) (f : FaultRecord) : (s.takeFault f).halted = true := rfl
@[simp] theorem State.takeFault_faultCause (s : State) (f : FaultRecord) : (s.takeFault f).faultCause = f.cause.code := rfl
@[simp] theorem State.takeFault_faultInfo (s : State) (f : FaultRecord) : (s.takeFault f).faultInfo = f.info := rfl
@[simp] theorem State.takeFault_mem (s : State) (f : FaultRecord) : (s.takeFault f).mem = s.mem := rfl
@[simp] theorem State.takeFault_output (s : State) (f : FaultRecord) : (s.takeFault f).output = s.output := rfl
@[simp] theorem State.takeFault_latch (s : State) (f : FaultRecord) : (s.takeFault f).latch = s.latch := rfl

/-! ### pcControl -/

@[simp] theorem State.pcControl_regs (s : State) (ir : Byte) : (s.pcControl ir).regs = s.regs := by
  unfold State.pcControl; split <;> rfl
@[simp] theorem State.pcControl_fl (s : State) (ir : Byte) : (s.pcControl ir).fl = s.fl := by
  unfold State.pcControl; split <;> rfl
@[simp] theorem State.pcControl_halted (s : State) (ir : Byte) : (s.pcControl ir).halted = s.halted := by
  unfold State.pcControl; split <;> rfl
@[simp] theorem State.pcControl_faultCause (s : State) (ir : Byte) : (s.pcControl ir).faultCause = s.faultCause := by
  unfold State.pcControl; split <;> rfl
@[simp] theorem State.pcControl_faultInfo (s : State) (ir : Byte) : (s.pcControl ir).faultInfo = s.faultInfo := by
  unfold State.pcControl; split <;> rfl
@[simp] theorem State.pcControl_mem (s : State) (ir : Byte) : (s.pcControl ir).mem = s.mem := by
  unfold State.pcControl; split <;> rfl
@[simp] theorem State.pcControl_output (s : State) (ir : Byte) : (s.pcControl ir).output = s.output := by
  unfold State.pcControl; split <;> rfl
@[simp] theorem State.pcControl_latch (s : State) (ir : Byte) : (s.pcControl ir).latch = s.latch := by
  unfold State.pcControl; split <;> rfl
theorem State.pcControl_pc (s : State) (ir : Byte) :
    (s.pcControl ir).pc = if setsPc ir then s.pc else s.pc + zext9 (operandCount ir) + 1 := by
  unfold State.pcControl; split <;> rfl

/-! ### Reading registers -/

@[simp] theorem State.reg_writeReg_same (s : State) (k : Fin 8) (v : Byte) : (s.writeReg k v).reg k = v := by
  simp [State.reg, State.writeReg]

theorem State.reg_writeReg_other (s : State) {j k : Fin 8} (v : Byte) (h : j ≠ k) : (s.writeReg k v).reg j = s.reg j := by
  have : k.val ≠ j.val := fun e => h (Fin.ext e.symm)
  simp [State.reg, State.writeReg, this]

theorem State.reg_writeReg (s : State) (j k : Fin 8) (v : Byte) : (s.writeReg k v).reg j = if j = k then v else s.reg j := by
  split
  · subst_vars; simp
  · exact State.reg_writeReg_other s v ‹_›

@[simp] theorem State.setPc_reg (s : State) (p : Addr) (k : Fin 8) : (s.setPc p).reg k = s.reg k := rfl
@[simp] theorem State.setPc_sp (s : State) (p : Addr) : (s.setPc p).sp = s.sp := rfl
@[simp] theorem State.setFlags_reg (s : State) (f : Flags) (k : Fin 8) : (s.setFlags f).reg k = s.reg k := rfl
@[simp] theorem State.setFlags_sp (s : State) (f : Flags) : (s.setFlags f).sp = s.sp := rfl
@[simp] theorem State.halt_reg (s : State) (k : Fin 8) : (s.halt).reg k = s.reg k := rfl
@[simp] theorem State.halt_sp (s : State) : (s.halt).sp = s.sp := rfl
@[simp] theorem State.emit_reg (s : State) (v : Byte) (k : Fin 8) : (s.emit v).reg k = s.reg k := rfl
@[simp] theorem State.emit_sp (s : State) (v : Byte) : (s.emit v).sp = s.sp := rfl
@[simp] theorem State.writeByte_reg (s : State) (x v : Byte) (k : Fin 8) : (s.writeByte x v).reg k = s.reg k := rfl
@[simp] theorem State.writeByte_sp (s : State) (x v : Byte) : (s.writeByte x v).sp = s.sp := rfl
@[simp] theorem State.latchOpcode_reg (s : State) (ir : Byte) (d : Decoded) (k : Fin 8) : (s.latchOpcode ir d).reg k = s.reg k := rfl
@[simp] theorem State.latchOpcode_sp (s : State) (ir : Byte) (d : Decoded) : (s.latchOpcode ir d).sp = s.sp := rfl
@[simp] theorem State.latchA_reg (s : State) (v : Byte) (k : Fin 8) : (s.latchA v).reg k = s.reg k := rfl
@[simp] theorem State.latchA_sp (s : State) (v : Byte) : (s.latchA v).sp = s.sp := rfl
@[simp] theorem State.latchB_reg (s : State) (v : Byte) (k : Fin 8) : (s.latchB v).reg k = s.reg k := rfl
@[simp] theorem State.latchB_sp (s : State) (v : Byte) : (s.latchB v).sp = s.sp := rfl
@[simp] theorem State.takeFault_reg (s : State) (f : FaultRecord) (k : Fin 8) : (s.takeFault f).reg k = s.reg k := rfl
@[simp] theorem State.pcControl_reg (s : State) (ir : Byte) (k : Fin 8) : (s.pcControl ir).reg k = s.reg k := by simp [State.reg]

@[simp] theorem State.takeFault_sp (s : State) (f : FaultRecord) : (s.takeFault f).sp = s.sp := rfl
@[simp] theorem State.pcControl_sp (s : State) (ir : Byte) : (s.pcControl ir).sp = s.sp := by simp [State.sp]

theorem State.writeReg_sp (s : State) (k : Fin 8) (v : Byte) :
    (s.writeReg k v).sp = if k = Config.spIndex then v else s.sp := by
  simp only [State.sp, State.reg_writeReg, eq_comm]

@[simp] theorem State.decSp_sp (s : State) : s.decSp.sp = s.sp - 1 := by simp [State.decSp, State.sp]
@[simp] theorem State.incSp_sp (s : State) : s.incSp.sp = s.sp + 1 := by simp [State.incSp, State.sp]

theorem State.decSp_reg (s : State) (k : Fin 8) : s.decSp.reg k = if k = Config.spIndex then s.sp - 1 else s.reg k :=
  State.reg_writeReg s k _ _

theorem State.incSp_reg (s : State) (k : Fin 8) : s.incSp.reg k = if k = Config.spIndex then s.sp + 1 else s.reg k :=
  State.reg_writeReg s k _ _

/-! ### Reading bytes of memory -/

@[simp] theorem State.writeReg_readByte (s : State) (k : Fin 8) (v : Byte) (x : Byte) : (s.writeReg k v).readByte x = s.readByte x := rfl
@[simp] theorem State.setPc_readByte (s : State) (p : Addr) (x : Byte) : (s.setPc p).readByte x = s.readByte x := rfl
@[simp] theorem State.setFlags_readByte (s : State) (f : Flags) (x : Byte) : (s.setFlags f).readByte x = s.readByte x := rfl
@[simp] theorem State.halt_readByte (s : State) (x : Byte) : (s.halt).readByte x = s.readByte x := rfl
@[simp] theorem State.emit_readByte (s : State) (v : Byte) (x : Byte) : (s.emit v).readByte x = s.readByte x := rfl
@[simp] theorem State.decSp_readByte (s : State) (x : Byte) : (s.decSp).readByte x = s.readByte x := rfl
@[simp] theorem State.incSp_readByte (s : State) (x : Byte) : (s.incSp).readByte x = s.readByte x := rfl
@[simp] theorem State.latchOpcode_readByte (s : State) (ir : Byte) (d : Decoded) (x : Byte) : (s.latchOpcode ir d).readByte x = s.readByte x := rfl
@[simp] theorem State.latchA_readByte (s : State) (v : Byte) (x : Byte) : (s.latchA v).readByte x = s.readByte x := rfl
@[simp] theorem State.latchB_readByte (s : State) (v : Byte) (x : Byte) : (s.latchB v).readByte x = s.readByte x := rfl
@[simp] theorem State.takeFault_readByte (s : State) (f : FaultRecord) (x : Byte) : (s.takeFault f).readByte x = s.readByte x := rfl
@[simp] theorem State.pcControl_readByte (s : State) (ir x : Byte) : (s.pcControl ir).readByte x = s.readByte x := by
  simp [State.readByte]

end Sys2Proof.Machine
end

