-- ==== Sys2Proof/Laws/Memory.lean ====
section
/-! SUPPORT. The laws of memory: what a read sees after a write, that every operation keeps the canonical form, and that canonical
memories that read alike are equal. -/

namespace Sys2Proof.Machine

/-! ### Reads after `erase`, `insert` and `write` -/

@[simp] theorem Memory.read_nil (a : Nat) : Memory.read [] a = 0 := rfl

theorem Memory.read_cons (c : Host.Cell) (m : Memory) (a : Nat) :
    Memory.read (c :: m) a = if c.1 = a then c.2 else Memory.read m a := rfl

theorem Memory.read_erase (m : Memory) (a x : Nat) : (m.erase a).read x = if x = a then 0 else m.read x := by
  induction m with
  | nil => simp [Memory.erase]
  | cons c m ih =>
    simp only [Memory.erase, List.filter_cons] at ih ⊢
    by_cases hc : c.1 = a
    · simp only [hc, ne_eq, not_true_eq_false, decide_false, Bool.false_eq_true, if_false, ih, Memory.read_cons]
      by_cases hx : x = a <;> simp_all [eq_comm]
    · simp only [hc, ne_eq, not_false_eq_true, decide_true, if_true, Memory.read_cons, ih]
      by_cases hx : x = a <;> simp_all

theorem Memory.read_insert (m : Memory) (a x : Nat) (v : Byte) (h : ∀ c ∈ m, c.1 ≠ a) :
    (m.insert a v).read x = if x = a then v else m.read x := by
  induction m with
  | nil => simp [Memory.insert, Memory.read_cons, eq_comm]
  | cons c m ih =>
    have hc : c.1 ≠ a := h c (by simp)
    have ih := ih (fun d hd => h d (by simp [hd]))
    unfold Memory.insert
    split
    · simp [Memory.read_cons, eq_comm]
    · rw [Memory.read_cons, ih, Memory.read_cons]
      by_cases hx : x = a <;> simp_all

theorem Memory.erase_ne (m : Memory) (a : Nat) : ∀ c ∈ m.erase a, c.1 ≠ a := by
  intro c hc
  simpa using (List.mem_filter.mp hc).2

/-- A read after a write: the value written at that address, the old byte at every other (20_memory.md R39). -/
theorem Memory.read_write (m : Memory) (a x : Nat) (v : Byte) :
    (m.write a v).read x = if x = a then v else m.read x := by
  unfold Memory.write
  split
  · rw [Memory.read_erase]; simp_all [Memory.unlisted]
  · rw [Memory.read_insert _ _ _ _ (Memory.erase_ne m a), Memory.read_erase]; split <;> simp_all

/-! ### The canonical form -/

theorem Memory.wf_cons (c : Host.Cell) (m : Memory) :
    Memory.wf (c :: m) = true ↔ c.1 < 256 ∧ c.2 ≠ 0 ∧ (∀ d ∈ m, c.1 < d.1) ∧ Memory.wf m = true := by
  simp only [Memory.wf, Bool.and_eq_true, decide_eq_true_eq, bne_iff_ne, ne_eq, List.all_eq_true, and_assoc]
  rfl

theorem Memory.wf_erase {m : Memory} (h : m.wf = true) (a : Nat) : (m.erase a).wf = true := by
  induction m with
  | nil => rfl
  | cons c m ih =>
    obtain ⟨h1, h2, h3, h4⟩ := (Memory.wf_cons c m).mp h
    have ih := ih h4
    simp only [Memory.erase, List.filter_cons] at ih ⊢
    split
    · exact (Memory.wf_cons _ _).mpr ⟨h1, h2, fun d hd => h3 d (List.mem_filter.mp hd).1, ih⟩
    · exact ih

theorem Memory.mem_insert {m : Memory} {a : Nat} {v : Byte} {d : Host.Cell} (h : d ∈ m.insert a v) : d = (a, v) ∨ d ∈ m := by
  induction m with
  | nil => simpa [Memory.insert] using h
  | cons c m ih =>
    unfold Memory.insert at h
    split at h
    · simpa using h
    · rcases List.mem_cons.mp h with rfl | h
      · simp
      · rcases ih h with rfl | h <;> simp_all

theorem Memory.wf_insert {m : Memory} (h : m.wf = true) {a : Nat} {v : Byte} (ha : a < 256) (hv : v ≠ 0)
    (hn : ∀ c ∈ m, c.1 ≠ a) : (m.insert a v).wf = true := by
  induction m with
  | nil => exact (Memory.wf_cons _ _).mpr ⟨ha, hv, by simp, rfl⟩
  | cons c m ih =>
    obtain ⟨h1, h2, h3, h4⟩ := (Memory.wf_cons c m).mp h
    have hc : c.1 ≠ a := hn c (by simp)
    unfold Memory.insert
    split
    · refine (Memory.wf_cons _ _).mpr ⟨ha, hv, ?_, h⟩
      intro d hd
      rcases List.mem_cons.mp hd with rfl | hd
      · assumption
      · have := h3 d hd; simp at *; omega
    · refine (Memory.wf_cons _ _).mpr ⟨h1, h2, ?_, ih h4 (fun d hd => hn d (by simp [hd]))⟩
      intro d hd
      rcases Memory.mem_insert hd with rfl | hd
      · simp at *; omega
      · exact h3 d hd

/-- A write of an existing address keeps the canonical form. -/
theorem Memory.wf_write {m : Memory} (h : m.wf = true) {a : Nat} (v : Byte) (ha : a < 256) : (m.write a v).wf = true := by
  unfold Memory.write
  split
  · exact Memory.wf_erase h a
  · exact Memory.wf_insert (Memory.wf_erase h a) ha ‹_› (Memory.erase_ne m a)

theorem Memory.wf_writeImage {m : Memory} (h : m.wf = true) (k : Nat) (l : List Int) (hl : k + l.length ≤ 256) :
    (writeImage m k l).wf = true := by
  induction l generalizing m k with
  | nil => exact h
  | cons v vs ih =>
    simp only [List.length_cons] at hl
    exact ih (Memory.wf_write h _ (by omega)) (k + 1) (by omega)

theorem State.reset_mem_wf : State.reset.mem.wf = true := rfl

theorem State.writeByte_mem_wf {s : State} (h : s.mem.wf = true) (x v : Byte) : (s.writeByte x v).mem.wf = true :=
  Memory.wf_write h v x.isLt

/-- In a canonical memory an address below every listed one reads as 0. -/
theorem Memory.read_below {m : Memory} {a : Nat} (h : ∀ d ∈ m, a < d.1) : m.read a = 0 := by
  induction m with
  | nil => rfl
  | cons c m ih =>
    have := h c (by simp)
    rw [Memory.read_cons, if_neg (by omega), ih (fun d hd => h d (by simp [hd]))]

/-! ### The accessors of State -/

@[simp] theorem State.writeByte_readByte_same (s : State) (x v : Byte) : (s.writeByte x v).readByte x = v := by
  simp [State.readByte, State.writeByte, Memory.read_write]

theorem State.writeByte_readByte (s : State) (x y v : Byte) :
    (s.writeByte x v).readByte y = if y = x then v else s.readByte y := by
  simp [State.readByte, State.writeByte, Memory.read_write, BitVec.toNat_inj]

end Sys2Proof.Machine
end

