-- ==== Sys2Proof/Laws/Ops.lean ====
section
/-! SUPPORT. One lemma per shared operation that says everything it can do. -/

namespace Sys2Proof.Machine

/-! ### `Raises` -/

@[simp] theorem ok_bind {α β : Type} (a : α) (f : α → Raises β) : ((Except.ok a : Raises α) >>= f) = f a := rfl
@[simp] theorem error_bind {α β : Type} (e : FaultRecord) (f : α → Raises β) :
    ((Except.error e : Raises α) >>= f) = Except.error e := rfl
@[simp] theorem raiseIf_true (f : FaultRecord) : raiseIf true f = .error f := rfl
@[simp] theorem raiseIf_false (f : FaultRecord) : raiseIf false f = .ok () := rfl

/-! ### Operands -/

theorem checkReg_ok {i : Byte} (h : i.toNat < 8) : checkReg i = .ok ⟨i.toNat, h⟩ := by simp [checkReg, h]

theorem checkReg_error {i : Byte} (h : 8 ≤ i.toNat) : checkReg i = .error (outOfBounds i) := by
  simp [checkReg, Nat.not_lt.mpr h]

/-- `checkReg` answers the index, below 8, or raises OutOfBounds of the byte. -/
theorem checkReg_cases (i : Byte) :
    (∃ h : i.toNat < 8, checkReg i = .ok ⟨i.toNat, h⟩) ∨ (8 ≤ i.toNat ∧ checkReg i = .error (outOfBounds i)) := by
  rcases Nat.lt_or_ge i.toNat 8 with h | h
  · exact .inl ⟨h, checkReg_ok h⟩
  · exact .inr ⟨h, checkReg_error h⟩

/-! ### Bounds-checked memory accesses -/

theorem State.memRead_ok (s : State) {addr : Addr} (h : addr.toNat < 256) :
    s.memRead addr = .ok (s.readByte (addr.setWidth 8)) := by simp [State.memRead, Config.memSize, h]

theorem State.memRead_error (s : State) {addr : Addr} (h : 256 ≤ addr.toNat) :
    s.memRead addr = .error (outOfBounds addr) := by simp [State.memRead, Config.memSize, Nat.not_lt.mpr h]

theorem zext9_toNat (x : Byte) : (zext9 x).toNat = x.toNat := by
  simp only [zext9, BitVec.toNat_setWidth]; have := x.isLt; omega

@[simp] theorem zext9_setWidth (x : Byte) : (zext9 x).setWidth 8 = x := by
  apply BitVec.eq_of_toNat_eq
  rw [BitVec.toNat_setWidth, zext9_toNat]; have := x.isLt; omega

/-- A read at the stack top never faults (20_memory.md R34). -/
@[simp] theorem State.readTop_eq (s : State) : s.readTop = .ok (s.readByte s.sp) := by
  rw [State.readTop, State.memRead_ok _ (by rw [zext9_toNat]; exact s.sp.isLt), zext9_setWidth]

/-- A write at the stack top never faults (20_memory.md R34). -/
@[simp] theorem State.writeTop_eq (s : State) (v : Byte) : s.writeTop v = .ok (s.writeByte s.sp v) := by
  have : (zext9 s.sp).toNat < Config.memSize := by rw [zext9_toNat]; exact s.sp.isLt
  simp [State.writeTop, State.memWrite, this]

/-! ### Running a handler -/

/-- A handler's run always answers a next state: the handler's state after the pc update, or the fault taken. -/
theorem runHandler_cases (h : Handler) (f : State → Raises State) (s : State) :
    (∃ t, f s = .ok t ∧ runHandler h f s = .next (t.pcControl h.opcode)) ∨
    (∃ e, f s = .error e ∧ runHandler h f s = .next (s.takeFault e)) := by
  unfold runHandler
  cases f s with
  | ok t => exact .inl ⟨t, rfl, rfl⟩
  | error e => exact .inr ⟨e, rfl, rfl⟩

theorem runHandler_ok {h : Handler} {f : State → Raises State} {s t : State} (e : f s = .ok t) :
    runHandler h f s = .next (t.pcControl h.opcode) := by simp [runHandler, e]

theorem runHandler_error {h : Handler} {f : State → Raises State} {s : State} {r : FaultRecord} (e : f s = .error r) :
    runHandler h f s = .next (s.takeFault r) := by simp [runHandler, e]

/-- What the shared ALU handler can do. -/
theorem aluHandler_cases (op : BitVec 4) (a b : Byte) (s : State) :
    (8 ≤ a.toNat ∧ aluHandler op a b s = .error (outOfBounds a)) ∨
    (a.toNat < 8 ∧ 8 ≤ b.toNat ∧ aluHandler op a b s = .error (outOfBounds b)) ∨
    ∃ (ha : a.toNat < 8) (hb : b.toNat < 8),
      aluHandler op a b s =
        match aluCore op (s.reg ⟨a.toNat, ha⟩) (s.reg ⟨b.toNat, hb⟩) with
        | .result r => .ok (s.writeReg ⟨a.toNat, ha⟩ r)
        | .flags f => .ok (s.setFlags f)
        | .divideByZero => .error (divideByZero b)
        | .unsupported op => .error (unsupportedOperation op) := by
  unfold aluHandler
  rcases checkReg_cases a with ⟨ha, ea⟩ | ⟨ha, ea⟩
  · rcases checkReg_cases b with ⟨hb, eb⟩ | ⟨hb, eb⟩
    · exact .inr (.inr ⟨ha, hb, by simp only [ea, eb, ok_bind] <;> rfl⟩)
    · exact .inr (.inl ⟨ha, hb, by simp [ea, eb]⟩)
  · exact .inl ⟨ha, by simp [ea]⟩

/-- What the shared jump handler can do. -/
theorem jumpHandler_cases (a : Byte) (taken : Bool) (s : State) :
    (8 ≤ a.toNat ∧ jumpHandler a taken s = .error (outOfBounds a)) ∨
    ∃ ha : a.toNat < 8,
      jumpHandler a taken s = .ok (s.setPc (if taken then zext9 (s.reg ⟨a.toNat, ha⟩) else s.pc + 2)) := by
  unfold jumpHandler
  rcases checkReg_cases a with ⟨ha, ea⟩ | ⟨ha, ea⟩
  · exact .inr ⟨ha, by simp [ea]⟩
  · exact .inl ⟨ha, by simp [ea]⟩

/-! ### The step -/

theorem stepWith_halted (cfg : Config) {s : State} (h : s.halted = true) : stepWith cfg s = .next s := by
  simp [stepWith, h]

/-- What a step of a running block can do. -/
theorem stepWith_running (cfg : Config) {s : State} (h : s.halted = false) :
    (∃ t e, fetch cfg s = (t, .error e) ∧ stepWith cfg s = .next (t.takeFault e)) ∨
    (∃ t i, fetch cfg s = (t, .ok i) ∧ stepWith cfg s = exec i t) := by
  unfold stepWith
  rcases hf : fetch cfg s with ⟨t, e | i⟩
  · exact .inl ⟨t, e, rfl, by simp [h]⟩
  · exact .inr ⟨t, i, rfl, by simp [h]⟩

end Sys2Proof.Machine
end

