-- ==== Sys2Proof/Laws/Exec.lean ====
section
/-! SUPPORT. What each instruction answers: the handler's state before the pc update, or the fault. -/

namespace Sys2Proof.Machine

open Sys2Proof.Laws

/-- What the program_counter_control adds to `pc` after a handler: `n + 1`, or nothing for a control transfer (30_encoding.md R50). -/
def pcStep : Handler → Addr
  | .ldi => 3 | .prn => 2 | .hlt => 1 | .mul => 3 | .add => 3 | .cmp => 3 | .push => 2 | .pop => 2
  | .call => 0 | .ret => 0 | .jmp => 0 | .jeq => 0 | .jne => 0 | .sub => 3 | .div => 3

@[simp] theorem State.pcControl_opcode_pc (s : State) (h : Handler) : (s.pcControl h.opcode).pc = s.pc + pcStep h := by
  have : (if setsPc h.opcode then (0 : Addr) else zext9 (operandCount h.opcode) + 1) = pcStep h := by
    cases h <;> decide
  rw [State.pcControl_pc, ← this]
  split <;> simp [BitVec.add_assoc]

/-! ### The arithmetic instructions -/

/-- The state after an ALU instruction whose operand bytes are in range and whose ALU answers a result. -/
theorem aluHandler_result {op : BitVec 4} {a b r : Byte} {s : State} (ha : a.toNat < 8) (hb : b.toNat < 8)
    (e : aluCore op (s.reg ⟨a.toNat, ha⟩) (s.reg ⟨b.toNat, hb⟩) = .result r) :
    aluHandler op a b s = .ok (s.writeReg ⟨a.toNat, ha⟩ r) := by
  simp [aluHandler, checkReg_ok ha, checkReg_ok hb, e]

theorem aluHandler_errorA {op : BitVec 4} {a b : Byte} {s : State} (ha : 8 ≤ a.toNat) :
    aluHandler op a b s = .error (outOfBounds a) := by simp [aluHandler, checkReg_error ha]

theorem aluHandler_errorB {op : BitVec 4} {a b : Byte} {s : State} (ha : a.toNat < 8) (hb : 8 ≤ b.toNat) :
    aluHandler op a b s = .error (outOfBounds b) := by simp [aluHandler, checkReg_ok ha, checkReg_error hb]

theorem exec_add {a b : Byte} (s : State) (ha : a.toNat < 8) (hb : b.toNat < 8) :
    exec (.add a b) s = .next ((s.writeReg ⟨a.toNat, ha⟩
      (aluAdd (s.reg ⟨a.toNat, ha⟩) (s.reg ⟨b.toNat, hb⟩))).pcControl Handler.add.opcode) :=
  runHandler_ok (aluHandler_result ha hb rfl)

theorem exec_sub {a b : Byte} (s : State) (ha : a.toNat < 8) (hb : b.toNat < 8) :
    exec (.sub a b) s = .next ((s.writeReg ⟨a.toNat, ha⟩
      (aluSub (s.reg ⟨a.toNat, ha⟩) (s.reg ⟨b.toNat, hb⟩))).pcControl Handler.sub.opcode) :=
  runHandler_ok (aluHandler_result ha hb rfl)

theorem exec_mul {a b : Byte} (s : State) (ha : a.toNat < 8) (hb : b.toNat < 8) :
    exec (.mul a b) s = .next ((s.writeReg ⟨a.toNat, ha⟩
      (aluMul (s.reg ⟨a.toNat, ha⟩) (s.reg ⟨b.toNat, hb⟩))).pcControl Handler.mul.opcode) :=
  runHandler_ok (aluHandler_result ha hb rfl)

theorem exec_div {a b : Byte} (s : State) (ha : a.toNat < 8) (hb : b.toNat < 8) (h0 : s.reg ⟨b.toNat, hb⟩ ≠ 0) :
    exec (.div a b) s = .next ((s.writeReg ⟨a.toNat, ha⟩
      (BitVec.ofNat 8 ((s.reg ⟨a.toNat, ha⟩).toNat / (s.reg ⟨b.toNat, hb⟩).toNat))).pcControl Handler.div.opcode) :=
  runHandler_ok (aluHandler_result ha hb (show aluDiv _ _ = _ by rw [aluDiv, if_neg h0]))

theorem exec_div_zero {a b : Byte} (s : State) (ha : a.toNat < 8) (hb : b.toNat < 8) (h0 : s.reg ⟨b.toNat, hb⟩ = 0) :
    exec (.div a b) s = .next (s.takeFault (divideByZero b)) := by
  have e : aluCore (aluSelect Handler.div.opcode) (s.reg ⟨a.toNat, ha⟩) (s.reg ⟨b.toNat, hb⟩) = .divideByZero :=
    show aluDiv _ _ = _ by rw [aluDiv, if_pos h0]
  exact runHandler_error (by simp [aluHandler, checkReg_ok ha, checkReg_ok hb, e])

theorem exec_cmp {a b : Byte} (s : State) (ha : a.toNat < 8) (hb : b.toNat < 8) :
    exec (.cmp a b) s = .next ((s.setFlags
      (cmpFlags (s.reg ⟨a.toNat, ha⟩) (s.reg ⟨b.toNat, hb⟩))).pcControl Handler.cmp.opcode) := by
  have e : aluCore (aluSelect Handler.cmp.opcode) (s.reg ⟨a.toNat, ha⟩) (s.reg ⟨b.toNat, hb⟩) =
    .flags (cmpFlags (s.reg ⟨a.toNat, ha⟩) (s.reg ⟨b.toNat, hb⟩)) := rfl
  exact runHandler_ok (by simp [aluHandler, checkReg_ok ha, checkReg_ok hb, e])

/-! ### Load, print, halt, stack and control transfer -/

theorem exec_ldi {a : Byte} (imm : Byte) (s : State) (ha : a.toNat < 8) :
    exec (.ldi a imm) s = .next ((s.writeReg ⟨a.toNat, ha⟩ imm).pcControl Handler.ldi.opcode) := by
  simp [exec, execLdi, runHandler, checkReg_ok ha, immediate]

theorem exec_prn {a : Byte} (s : State) (ha : a.toNat < 8) :
    exec (.prn a) s = .next ((s.emit (s.reg ⟨a.toNat, ha⟩)).pcControl Handler.prn.opcode) := by
  simp [exec, execPrn, runHandler, checkReg_ok ha]

theorem exec_hlt (s : State) : exec .hlt s = .next (s.halt.pcControl Handler.hlt.opcode) := rfl

theorem exec_push {a : Byte} (s : State) (ha : a.toNat < 8) :
    exec (.push a) s = .next ((s.decSp.writeByte s.decSp.sp (s.decSp.reg ⟨a.toNat, ha⟩)).pcControl Handler.push.opcode) := by
  simp [exec, execPush, runHandler, checkReg_ok ha]

theorem exec_pop {a : Byte} (s : State) (ha : a.toNat < 8) :
    exec (.pop a) s = .next ((s.writeReg ⟨a.toNat, ha⟩ (s.readByte s.sp)).incSp.pcControl Handler.pop.opcode) := by
  simp [exec, execPop, runHandler, checkReg_ok ha]

theorem exec_call {a : Byte} (s : State) (ha : a.toNat < 8) (hp : s.pc.toNat + 2 < 256) :
    exec (.call a) s = .next (((s.decSp.writeByte s.decSp.sp (BitVec.ofNat 8 (s.pc.toNat + 2))).setPc
      (zext9 (s.decSp.reg ⟨a.toNat, ha⟩))).pcControl Handler.call.opcode) := by
  have : decide (255 < s.pc.toNat + 2) = false := by simp; omega
  simp [exec, execCall, runHandler, checkReg_ok ha, this]

theorem exec_call_fault {a : Byte} (s : State) (ha : a.toNat < 8) (hp : 256 ≤ s.pc.toNat + 2) :
    exec (.call a) s = .next (s.takeFault (outOfBounds (BitVec.ofNat 9 (s.pc.toNat + 2)))) := by
  have : decide (255 < s.pc.toNat + 2) = true := by simp; omega
  simp [exec, execCall, runHandler, checkReg_ok ha, this]

theorem exec_ret (s : State) :
    exec .ret s = .next ((s.setPc (zext9 (s.readByte s.sp))).incSp.pcControl Handler.ret.opcode) := by
  simp [exec, execRet, runHandler]

theorem exec_jmp {a : Byte} (s : State) (ha : a.toNat < 8) :
    exec (.jmp a) s = .next ((s.setPc (zext9 (s.reg ⟨a.toNat, ha⟩))).pcControl Handler.jmp.opcode) := by
  simp [exec, execJmp, jumpHandler, runHandler, checkReg_ok ha]

theorem exec_jeq {a : Byte} (s : State) (ha : a.toNat < 8) :
    exec (.jeq a) s = .next ((s.setPc
      (if s.fl.e then zext9 (s.reg ⟨a.toNat, ha⟩) else s.pc + 2)).pcControl Handler.jeq.opcode) := by
  simp [exec, execJeq, jumpHandler, runHandler, checkReg_ok ha]

theorem exec_jne {a : Byte} (s : State) (ha : a.toNat < 8) :
    exec (.jne a) s = .next ((s.setPc
      (if !s.fl.e then zext9 (s.reg ⟨a.toNat, ha⟩) else s.pc + 2)).pcControl Handler.jne.opcode) := by
  simp [exec, execJne, jumpHandler, runHandler, checkReg_ok ha]

/-! ### Register indices out of range -/

theorem exec_badB {mk : Byte → Byte → Instr} {h : Handler} {a b : Byte} {s : State}
    (e : exec (mk a b) s = runHandler h (aluHandler (aluSelect h.opcode) a b) s) (ha : a.toNat < 8) (hb : 8 ≤ b.toNat) :
    exec (mk a b) s = .next (s.takeFault (outOfBounds b)) := e.trans (runHandler_error (aluHandler_errorB ha hb))

/-- A first register operand out of range is the fault of the instruction (00_scope.md R14). -/
theorem exec_badA (i : Instr) (s : State) {a : Byte} (hi : i.regOperands.head? = some a) (ha : 8 ≤ a.toNat) :
    exec i s = .next (s.takeFault (outOfBounds a)) := by
  cases i <;> simp only [Instr.regOperands, List.head?_cons, List.head?_nil, Option.some.injEq, reduceCtorEq] at hi <;> subst hi
  case add => exact runHandler_error (aluHandler_errorA ha)
  case sub => exact runHandler_error (aluHandler_errorA ha)
  case mul => exact runHandler_error (aluHandler_errorA ha)
  case div => exact runHandler_error (aluHandler_errorA ha)
  case cmp => exact runHandler_error (aluHandler_errorA ha)
  case ldi => simp [exec, execLdi, runHandler, checkReg_error ha]
  case prn => simp [exec, execPrn, runHandler, checkReg_error ha]
  case push => simp [exec, execPush, runHandler, checkReg_error ha]
  case pop => simp [exec, execPop, runHandler, checkReg_error ha]
  case call => simp [exec, execCall, runHandler, checkReg_error ha]
  case jmp => simp [exec, execJmp, jumpHandler, runHandler, checkReg_error ha]
  case jeq => simp [exec, execJeq, jumpHandler, runHandler, checkReg_error ha]
  case jne => simp [exec, execJne, jumpHandler, runHandler, checkReg_error ha]

/-! ### Every instruction, once -/

/-- What an instruction can do to the state, pc aside: the one inversion lemma the whole-machine rules rest on. Either a fault is
taken and nothing else changes, or the instruction's own update is made. -/
theorem exec_cases (i : Instr) (s : State) :
    (∃ f, exec i s = .next (s.takeFault f)) ∨
    (∃ (a : Fin 8) (v : Byte) (h : Handler), exec i s = .next ((s.writeReg a v).pcControl h.opcode)) ∨
    (∃ a b f, i = .cmp a b ∧ exec i s = .next ((s.setFlags f).pcControl Handler.cmp.opcode)) ∨
    (∃ (a : Byte) (ha : a.toNat < 8), i = .prn a ∧
      exec i s = .next ((s.emit (s.reg ⟨a.toNat, ha⟩)).pcControl Handler.prn.opcode)) ∨
    (i = .hlt ∧ exec i s = .next (s.halt.pcControl Handler.hlt.opcode)) ∨
    (∃ (a v : Byte), i = .push a ∧ exec i s = .next ((s.decSp.writeByte s.decSp.sp v).pcControl Handler.push.opcode)) ∨
    (∃ (a : Byte) (ha : a.toNat < 8), i = .pop a ∧
      exec i s = .next ((s.writeReg ⟨a.toNat, ha⟩ (s.readByte s.sp)).incSp.pcControl Handler.pop.opcode)) ∨
    (∃ (a v w : Byte), i = .call a ∧
      exec i s = .next (((s.decSp.writeByte s.decSp.sp v).setPc (zext9 w)).pcControl Handler.call.opcode)) ∨
    (i = .ret ∧ exec i s = .next ((s.setPc (zext9 (s.readByte s.sp))).incSp.pcControl Handler.ret.opcode)) ∨
    (∃ (p : Addr) (h : Handler), (h = .jmp ∨ h = .jeq ∨ h = .jne) ∧ ((∃ w : Byte, p = zext9 w) ∨ p = s.pc + 2) ∧
      exec i s = .next ((s.setPc p).pcControl h.opcode)) := by
  rcases hop : i.regOperands.head? with _ | a
  · cases i <;> simp [Instr.regOperands] at hop
    case hlt => exact .inr (.inr (.inr (.inr (.inl ⟨rfl, exec_hlt s⟩))))
    case ret => exact .inr (.inr (.inr (.inr (.inr (.inr (.inr (.inr (.inl ⟨rfl, exec_ret s⟩))))))))
  rcases Nat.lt_or_ge a.toNat 8 with ha | ha
  swap
  · exact .inl ⟨_, exec_badA i s hop ha⟩
  cases i <;> simp only [Instr.regOperands, List.head?_cons, List.head?_nil, Option.some.injEq, reduceCtorEq] at hop <;> subst hop
  case ldi imm => exact .inr (.inl ⟨_, _, _, exec_ldi imm s ha⟩)
  case prn => exact .inr (.inr (.inr (.inl ⟨_, ha, rfl, exec_prn s ha⟩)))
  case push => exact .inr (.inr (.inr (.inr (.inr (.inl ⟨_, _, rfl, exec_push s ha⟩)))))
  case pop => exact .inr (.inr (.inr (.inr (.inr (.inr (.inl ⟨_, ha, rfl, exec_pop s ha⟩))))))
  case call =>
    rcases Nat.lt_or_ge (s.pc.toNat + 2) 256 with hp | hp
    · exact .inr (.inr (.inr (.inr (.inr (.inr (.inr (.inl ⟨_, _, _, rfl, exec_call s ha hp⟩)))))))
    · exact .inl ⟨_, exec_call_fault s ha hp⟩
  case jmp => exact .inr (.inr (.inr (.inr (.inr (.inr (.inr (.inr (.inr
      ⟨_, .jmp, .inl rfl, .inl ⟨_, rfl⟩, exec_jmp s ha⟩))))))))
  case jeq =>
    refine .inr (.inr (.inr (.inr (.inr (.inr (.inr (.inr (.inr ⟨_, .jeq, .inr (.inl rfl), ?_, exec_jeq s ha⟩))))))))
    split
    · exact .inl ⟨_, rfl⟩
    · exact .inr rfl
  case jne =>
    refine .inr (.inr (.inr (.inr (.inr (.inr (.inr (.inr (.inr ⟨_, .jne, .inr (.inr rfl), ?_, exec_jne s ha⟩))))))))
    split
    · exact .inl ⟨_, rfl⟩
    · exact .inr rfl
  all_goals rename_i b; rcases Nat.lt_or_ge b.toNat 8 with hb | hb
  all_goals try exact .inl ⟨_, exec_badB rfl ha hb⟩
  case add.inl => exact .inr (.inl ⟨_, _, _, exec_add s ha hb⟩)
  case sub.inl => exact .inr (.inl ⟨_, _, _, exec_sub s ha hb⟩)
  case mul.inl => exact .inr (.inl ⟨_, _, _, exec_mul s ha hb⟩)
  case cmp.inl => exact .inr (.inr (.inl ⟨_, _, _, rfl, exec_cmp s ha hb⟩))
  case div.inl =>
    by_cases h0 : s.reg ⟨b.toNat, hb⟩ = 0
    · exact .inl ⟨_, exec_div_zero s ha hb h0⟩
    · exact .inr (.inl ⟨_, _, _, exec_div s ha hb h0⟩)

end Sys2Proof.Machine
end

