-- ==== Sys2Proof/Laws/Fetch.lean ====
section
/-! SUPPORT. Everything a fetch can do, once (30_encoding.md R54). -/

namespace Sys2Proof.Machine

open Sys2Proof.Laws

/-- The five ways a fetch ends: `pc` past memory, no handler, the first or the second operand byte past memory, or the instruction
whose bytes stand at `pc`. Only the latches change. -/
inductive FetchCases (cfg : Config) (s : State) : State × Raises Instr → Prop
  | pcOutside (h : 256 ≤ s.pc.toNat) : FetchCases cfg s (s, .error (outOfBounds s.pc))
  | illegal (h : s.pc.toNat < 256) (ht : opcodeTable cfg (s.mem.read s.pc.toNat) = none) (l : Latches) :
      FetchCases cfg s ({ s with latch := l }, .error (illegalInstruction (s.mem.read s.pc.toNat)))
  | opAOutside (hd : Handler) (ht : opcodeTable cfg (s.mem.read s.pc.toNat) = some hd) (hn : 1 ≤ operandNumber hd)
      (hp : s.pc.toNat = 255) (l : Latches) :
      FetchCases cfg s ({ s with latch := l }, .error (outOfBounds (256 : Addr)))
  | opBOutside (hd : Handler) (ht : opcodeTable cfg (s.mem.read s.pc.toNat) = some hd) (hn : operandNumber hd = 2)
      (hp : s.pc.toNat = 254) (l : Latches) :
      FetchCases cfg s ({ s with latch := l }, .error (outOfBounds (256 : Addr)))
  | fetched (hd : Handler) (ht : opcodeTable cfg (s.mem.read s.pc.toNat) = some hd)
      (hp : s.pc.toNat + operandNumber hd < 256) (i : Instr)
      (hi : i = hd.instr (s.mem.read (s.pc.toNat + 1)) (s.mem.read (s.pc.toNat + 2))) :
      FetchCases cfg s ({ s with latch := latchesOf i s.latch }, .ok i)

theorem State.memRead_eq (s : State) {p : Addr} (h : p.toNat < 256) : s.memRead p = .ok (s.mem.read p.toNat) := by
  rw [State.memRead_ok _ h]; simp [State.readByte, Nat.mod_eq_of_lt h]

/-- Reading `k` bytes past `pc`, in any state with the memory of `s`. -/
theorem memRead_past {s t : State} (e : t.mem = s.mem) {k : Nat} (h : s.pc.toNat + k < 256) :
    t.memRead (s.pc + BitVec.ofNat 9 k) = .ok (s.mem.read (s.pc.toNat + k)) := by
  have : (s.pc + BitVec.ofNat 9 k).toNat = s.pc.toNat + k := by rw [BitVec.toNat_add, BitVec.toNat_ofNat]; omega
  rw [State.memRead_eq _ (by omega), this, e]

theorem fetch_cases (cfg : Config) (s : State) : FetchCases cfg s (fetch cfg s) := by
  rcases Nat.lt_or_ge s.pc.toNat 256 with hp | hp
  swap
  · simp only [fetch, State.memRead_error s hp]; exact .pcOutside hp
  rcases ht : opcodeTable cfg (s.mem.read s.pc.toNat) with _ | hd
  · simp only [fetch, State.memRead_eq s hp, decodeOpcode, ht]; exact .illegal hp ht _
  obtain ⟨hir, -⟩ := opcodeTable_some ht
  have ht' : opcodeTable cfg hd.opcode = some hd := hir ▸ ht
  simp only [fetch, State.memRead_eq s hp, decodeOpcode, hir, ht', fetchOperands, operandCount_opcode]
  have fetched := fun h => FetchCases.fetched (cfg := cfg) (s := s) hd ht h _ rfl
  by_cases h0 : operandNumber hd = 0
  · simp only [h0, if_true]
    have := fetched (by omega)
    cases hd <;> simp [operandNumber] at h0 <;>
      simpa only [Handler.instr, latchesOf, State.latchOpcode, Instr.operands, Instr.handler] using this
  simp only [h0, if_false, State.latchOpcode_pc]
  rcases Nat.lt_or_ge (s.pc.toNat + 1) 256 with hp1 | hp1
  swap
  · have he : s.pc = 255 := BitVec.eq_of_toNat_eq (by simp; omega)
    have : ∀ t : State, t.memRead (s.pc + 1) = .error (outOfBounds (256 : Addr)) := fun t => by
      rw [State.memRead_error _ (by rw [he]; decide), he]; rfl
    rw [this]; exact .opAOutside hd ht (by omega) (by rw [he]; rfl) _
  have read1 : ∀ t : State, t.mem = s.mem → t.memRead (s.pc + 1) = .ok (s.mem.read (s.pc.toNat + 1)) :=
    fun t e => memRead_past e hp1
  rw [read1 _ (by simp)]
  by_cases h1 : operandNumber hd = 1
  · simp only [h1, if_true]
    have := fetched (by omega)
    cases hd <;> simp [operandNumber] at h1 <;>
      simpa only [Handler.instr, latchesOf, State.latchOpcode, State.latchA, Instr.operands, Instr.handler] using this
  have h2 : operandNumber hd = 2 := by cases hd <;> simp_all [operandNumber]
  simp only [h1, if_false, State.latchA_pc, State.latchOpcode_pc]
  rcases Nat.lt_or_ge (s.pc.toNat + 2) 256 with hp2 | hp2
  swap
  · have he : s.pc = 254 := BitVec.eq_of_toNat_eq (by simp; omega)
    have : ∀ t : State, t.memRead (s.pc + 2) = .error (outOfBounds (256 : Addr)) := fun t => by
      rw [State.memRead_error _ (by rw [he]; decide), he]; rfl
    rw [this]; exact .opBOutside hd ht h2 (by rw [he]; rfl) _
  have read2 : ∀ t : State, t.mem = s.mem → t.memRead (s.pc + 2) = .ok (s.mem.read (s.pc.toNat + 2)) :=
    fun t e => memRead_past e hp2
  rw [read2 _ (by simp)]
  have := fetched (by omega)
  cases hd <;> simp [operandNumber] at h2 <;>
    simpa only [Handler.instr, latchesOf, State.latchOpcode, State.latchA, State.latchB, Instr.operands, Instr.handler]
      using this

/-! ### The fetch under each condition, as an equation -/

theorem fetch_pcOutside (cfg : Config) {s : State} (h : 256 ≤ s.pc.toNat) : fetch cfg s = (s, .error (outOfBounds s.pc)) := by
  simp [fetch, State.memRead_error s h]

/-- A legal opcode with all its bytes in memory is fetched. -/
theorem fetch_fetched {cfg : Config} {s : State} {hd : Handler} (ht : opcodeTable cfg (s.mem.read s.pc.toNat) = some hd)
    (hp : s.pc.toNat + operandNumber hd < 256) :
    fetch cfg s = ({ s with latch := latchesOf (hd.instr (s.mem.read (s.pc.toNat + 1)) (s.mem.read (s.pc.toNat + 2))) s.latch },
      .ok (hd.instr (s.mem.read (s.pc.toNat + 1)) (s.mem.read (s.pc.toNat + 2)))) := by
  have f := fetch_cases cfg s
  generalize fetch cfg s = r at f
  cases f with
  | pcOutside => omega
  | illegal _ h => simp [ht] at h
  | opAOutside _ h => simp [ht] at h; subst h; omega
  | opBOutside _ h => simp [ht] at h; subst h; omega
  | fetched _ h _ _ hi => simp [ht] at h; subst h hi; rfl

/-- A legal opcode whose operands run past memory raises OutOfBounds of 256. -/
theorem fetch_operandOutside {cfg : Config} {s : State} {hd : Handler}
    (ht : opcodeTable cfg (s.mem.read s.pc.toNat) = some hd) (h : s.pc.toNat < 256) (hp : 256 ≤ s.pc.toNat + operandNumber hd) :
    ∃ l, fetch cfg s = ({ s with latch := l }, .error (outOfBounds (256 : Addr))) := by
  have f := fetch_cases cfg s
  generalize fetch cfg s = r at f
  cases f with
  | pcOutside => omega
  | illegal _ h => simp [ht] at h
  | opAOutside _ _ _ _ l => exact ⟨l, rfl⟩
  | opBOutside _ _ _ _ l => exact ⟨l, rfl⟩
  | fetched _ h => simp [ht] at h; subst h; omega

/-- The operand reads leave the opcode latch. -/
theorem fetchOperands_latch_ir (n : BitVec 2) (s : State) : (fetchOperands n s).1.latch.ir = s.latch.ir := by
  unfold fetchOperands
  split
  · rfl
  split
  · rfl
  dsimp only
  split
  · rfl
  split <;> rfl

/-- The opcode a fetch latches is the byte at `pc`, whether or not the fetch goes on to raise a fault. -/
theorem fetch_latch_ir (cfg : Config) {s : State} (h : s.pc.toNat < 256) :
    (fetch cfg s).1.latch.ir = s.mem.read s.pc.toNat := by
  simp only [fetch, State.memRead_eq s h]
  split
  · rfl
  have := fetchOperands_latch_ir (decodeOpcode cfg (s.mem.read s.pc.toNat)).n
    (s.latchOpcode (s.mem.read s.pc.toNat) (decodeOpcode cfg (s.mem.read s.pc.toNat)))
  split <;> simp_all [State.latchOpcode]

end Sys2Proof.Machine
end

