-- ==== Sys2Proof/Laws/Ports.lean ====
section
/-! SUPPORT. What replaying accesses on the memory port does to memory. -/

namespace Sys2Proof.Machine

@[simp] theorem Memory.replay_nil (m : Memory) : m.replay [] = m := rfl
@[simp] theorem Memory.replay_read (m : Memory) (x v : Byte) (l : List Access) : m.replay (.read x v :: l) = m.replay l := rfl
@[simp] theorem Memory.replay_write (m : Memory) (x v : Byte) (l : List Access) :
    m.replay (.write x v :: l) = (m.write x.toNat v).replay l := rfl
@[simp] theorem Memory.replay_readAccess (m : Memory) (s : State) (x : Byte) (l : List Access) :
    m.replay (s.readAccess x :: l) = m.replay l := rfl

theorem Memory.replay_append (m : Memory) (l l' : List Access) : m.replay (l ++ l') = (m.replay l).replay l' := by
  induction l generalizing m with
  | nil => rfl
  | cons a l ih => cases a <;> simp [ih]

/-- The reads of a fetch leave memory. -/
theorem Memory.replay_map_readAccess (m : Memory) (s : State) (l : List Nat) :
    m.replay (l.map (fun a => s.readAccess (BitVec.ofNat 8 a))) = m := by
  induction l with
  | nil => rfl
  | cons a l ih => simpa using ih

/-- A write keeps the canonical form, so replaying does. -/
theorem Memory.wf_replay {m : Memory} (h : m.wf = true) (l : List Access) : (m.replay l).wf = true := by
  induction l generalizing m with
  | nil => exact h
  | cons a l ih =>
    cases a with
    | read x v => exact ih h
    | write x v => exact ih (Memory.wf_write h v x.isLt)

@[simp] theorem State.readAccess_setPc (s : State) (p : Addr) (x : Byte) : (s.setPc p).readAccess x = s.readAccess x := rfl

theorem State.mem_readAccess {s : State} {x y v : Byte} (h : Access.read x v = s.readAccess y) : v = s.readByte x := by
  cases h; rfl

end Sys2Proof.Machine
end

