-- ==== Sys2Proof/Tests/Slice0.lean ====
section
/-! SUPPORT. Tests: the ill-formed terms, words written out from 30_encoding.md R49, the vectors of 95_test_vectors.md, and a witness
for the hypotheses of every statement. Expected values are the spec's, never the model's. -/

namespace Sys2Proof.Tests

open Sys2Proof Sys2Proof.Machine Sys2Proof.Statement

/-! ### Builders -/

/-- The next state of a step; `none` when the step stopped. -/
def next? : Host.Outcome State Fault Refusal → Option State
  | .next t => some t
  | .fault _ => none
  | .refused _ => none

/-- The next state of a step, for a step known to have one. -/
def after (o : Host.Outcome State Fault Refusal) : State := (next? o).getD State.reset

/-- The reset state with `pc` set and bytes stored there. -/
def code (pc : Nat) (bytes : List Byte) : State := (State.reset.setPc (BitVec.ofNat 9 pc)).placeBytes pc bytes

/-- `code` with two registers set. -/
def codeWith (pc : Nat) (bytes : List Byte) (j : Fin 8) (v : Byte) (k : Fin 8) (w : Byte) : State :=
  ((code pc bytes).writeReg j v).writeReg k w

/-- The part of a state the vectors speak of most: a register, `pc`, HALTED, FAULT_CAUSE and FAULT_INFO. -/
def seen (k : Fin 8) (o : Host.Outcome State Fault Refusal) : Option (Byte × Nat × Bool × Nat × Nat) :=
  (next? o).map (fun t => (t.reg k, t.pc.toNat, t.halted, t.faultCause.toNat, t.faultInfo.toNat))

/-- The flags E, L, G after a step. -/
def flagsSeen (o : Host.Outcome State Fault Refusal) : Option (Bool × Bool × Bool) :=
  (next? o).map (fun t => (t.fl.e, t.fl.l, t.fl.g))

/-- FL with the given E, L, G. -/
def withFlags (e l g : Bool) (s : State) : State := s.setFlags { e := e, l := l, g := g }

/-- The machine without SUB and DIV. -/
def noSubDiv : Config := { enableSubDiv := false }

/-! ### Well-formedness: an ill-formed term for each check -/

theorem test_wellFormed_refuses_sub_without_parameter : ¬ (Instr.sub 0 1).WellFormed noSubDiv := by decide
theorem test_wellFormed_refuses_div_without_parameter : ¬ (Instr.div 0 1).WellFormed noSubDiv := by decide
theorem test_wellFormed_takes_sub_and_div_with_parameter :
    (Instr.sub 0 1).WellFormed Config.default ∧ (Instr.div 0 1).WellFormed Config.default := by decide
theorem test_regsInRange_refuses_index_8 :
    ¬ (Instr.push 8).RegsInRange ∧ ¬ (Instr.add 7 8).RegsInRange ∧ ¬ (Instr.add 8 7).RegsInRange ∧ ¬ (Instr.ldi 200 0).RegsInRange := by
  decide
theorem test_regsInRange_takes_index_7_and_any_immediate : (Instr.ldi 7 255).RegsInRange ∧ (Instr.add 7 7).RegsInRange := by decide

/-! ### Decoding: each row of 30_encoding.md R49, its opcode byte bit by bit -/

theorem test_decode_ldi : decode Config.default [0b10000010, 0b00000011, 0b11111111] = .ok (.ldi 3 255, []) := by decide
theorem test_decode_prn : decode Config.default [0b01000111, 0b00000111] = .ok (.prn 7, []) := by decide
theorem test_decode_hlt : decode Config.default [0b00000001] = .ok (.hlt, []) := by decide
theorem test_decode_mul : decode Config.default [0b10100010, 0b00000000, 0b00000001] = .ok (.mul 0 1, []) := by decide
theorem test_decode_add : decode Config.default [0b10100000, 0b00000111, 0b00000001] = .ok (.add 7 1, []) := by decide
theorem test_decode_cmp : decode Config.default [0b10100111, 0b00000010, 0b00000011] = .ok (.cmp 2 3, []) := by decide
theorem test_decode_push : decode Config.default [0b01000101, 0b00000010] = .ok (.push 2, []) := by decide
theorem test_decode_pop : decode Config.default [0b01000110, 0b00000011] = .ok (.pop 3, []) := by decide
theorem test_decode_call : decode Config.default [0b01010000, 0b00000001] = .ok (.call 1, []) := by decide
theorem test_decode_ret : decode Config.default [0b00010001, 0b00000000] = .ok (.ret, [0]) := by decide
theorem test_decode_jmp : decode Config.default [0b01010100, 0b00000010] = .ok (.jmp 2, []) := by decide
theorem test_decode_jeq : decode Config.default [0b01010101, 0b00000011] = .ok (.jeq 3, []) := by decide
theorem test_decode_jne : decode Config.default [0b01010110, 0b00000100] = .ok (.jne 4, []) := by decide
theorem test_decode_sub : decode Config.default [0b10100001, 0b00000010, 0b00000011] = .ok (.sub 2 3, []) := by decide
theorem test_decode_div : decode Config.default [0b10100011, 0b00000101, 0b00000110] = .ok (.div 5 6, []) := by decide

/-- The illegal rows of 95_test_vectors.md 2.1. -/
theorem test_decode_illegal : ∀ ir ∈ ([0x00, 0x02, 0x10, 0x48, 0x83, 0xA4, 0xC0, 0xFF] : List Byte),
    decode Config.default [ir, 0, 0] = .error (.illegal ir) := by decide
theorem test_decode_sub_div_illegal_without_parameter :
    decode noSubDiv [0xA1, 0, 1] = .error (.illegal 0xA1) ∧ decode noSubDiv [0xA3, 0, 1] = .error (.illegal 0xA3) := by decide
/-- Missing operand bytes are refused by name. -/
theorem test_decode_missing :
    decode Config.default [] = .error (.missing 0) ∧ decode Config.default [0x47] = .error (.missing 1) ∧
    decode Config.default [0x82, 0] = .error (.missing 2) := by decide
/-- The words of spec/opcode_table.json: bit 0 is the least significant bit of the first byte. -/
theorem test_decodeTableWord :
    decodeTableWord 24 0x080082 = some (.ldi 0 8) ∧ decodeTableWord 8 0x82 = some (.ldi 0 0) ∧
    decodeTableWord 8 0x01 = some .hlt ∧ decodeTableWord 8 0x00 = none := by decide

/-! ### Fetch and pc (95_test_vectors.md 2.2) -/

theorem test_F1_pc_256 : seen 0 (step (code 256 [])) = some (0, 256, true, 2, 256) := by decide
theorem test_F2_ldi_at_253 : seen 0 (step (code 253 [0x82, 0x00, 0x07])) = some (7, 256, false, 0, 0) := by decide
theorem test_F3_ldi_at_254 : seen 0 (step (code 254 [0x82, 0x00])) = some (0, 254, true, 2, 256) := by decide
theorem test_F4_ldi_at_255 : seen 0 (step (code 255 [0x82])) = some (0, 255, true, 2, 256) := by decide
theorem test_F6_illegal_at_255 : seen 0 (step (code 255 [0x00])) = some (0, 255, true, 1, 0) := by decide
theorem test_F7_no_operand_fetch_for_C0 : seen 0 (step (code 254 [0xC0])) = some (0, 254, true, 1, 0xC0) := by decide

/-! ### The ALU on its own (2.3) -/

theorem test_alu_add : aluCore 0 200 100 = .result 44 ∧ aluCore 0 255 255 = .result 254 := by decide
theorem test_alu_sub : aluCore 1 3 5 = .result 254 ∧ aluCore 1 0 255 = .result 1 := by decide
theorem test_alu_mul : aluCore 2 255 255 = .result 1 ∧ aluCore 2 10 26 = .result 4 := by decide
theorem test_alu_div : aluCore 3 200 7 = .result 28 ∧ aluCore 3 5 0 = .divideByZero := by decide
theorem test_alu_cmp : aluCore 7 254 9 = .flags { e := false, l := false, g := true } ∧
    aluCore 7 0 255 = .flags { e := false, l := true, g := false } := by decide
theorem test_alu_unsupported : aluCore 4 1 1 = .unsupported 4 ∧ aluCore 15 1 1 = .unsupported 15 := by decide
/-- FL.E is bit 0, FL.G bit 1, FL.L bit 2 (10_state.md R24). -/
theorem test_flags_byte : Flags.toByte { e := true, l := false, g := false } = 1 ∧
    Flags.toByte { e := false, l := false, g := true } = 2 ∧ Flags.toByte { e := false, l := true, g := false } = 4 := by decide

/-! ### One step of each instruction (2.4 to 2.6), at most two each -/

theorem test_A2_add : seen 0 (step (codeWith 0 [0xA0, 0x00, 0x00] 0 200 1 0)) = some (144, 3, false, 0, 0) := by decide
theorem test_A12_add_checks_a_first : seen 0 (step (code 0 [0xA0, 0x09, 0x0A])) = some (0, 0, true, 2, 9) := by decide
theorem test_A4_sub : seen 2 (step (codeWith 0 [0xA1, 0x02, 0x03] 2 10 3 4)) = some (6, 3, false, 0, 0) := by decide
theorem test_A15_sub_without_parameter :
    seen 0 (stepWith noSubDiv (code 0 [0xA1, 0x00, 0x01])) = some (0, 0, true, 1, 0xA1) := by decide
theorem test_W3_mul : seen 0 (step (codeWith 6 [0xA2, 0x00, 0x01] 0 3 1 4)) = some (12, 9, false, 0, 0) := by decide
theorem test_A6_div : seen 0 (step (codeWith 0 [0xA3, 0x00, 0x01] 0 200 1 7)) = some (28, 3, false, 0, 0) := by decide
theorem test_A7_div_by_zero : seen 0 (step (codeWith 6 [0xA3, 0x00, 0x01] 0 7 1 0)) = some (7, 6, true, 3, 1) := by decide
theorem test_A13_cmp : flagsSeen (step (withFlags false true false (codeWith 0 [0xA7, 0x02, 0x02] 2 77 0 0))) =
    some (true, false, false) := by decide
theorem test_A14_cmp : flagsSeen (step (codeWith 0 [0xA7, 0x00, 0x01] 0 5 1 9)) = some (false, true, false) := by decide
theorem test_L2_ldi_r7 : seen 7 (step (code 0 [0x82, 0x07, 0x10])) = some (0x10, 3, false, 0, 0) := by decide
theorem test_L3_ldi_r8 : seen 7 (step (code 0 [0x82, 0x08, 0x01])) = some (0xF4, 0, true, 2, 8) := by decide
theorem test_P1_prn_r7 : (next? (step (code 0 [0x47, 0x07]))).map (·.output) = some [244] := by decide
theorem test_P2_prn_r9 : (next? (step (code 0 [0x47, 0x09]))).map (fun t => (t.output, t.faultInfo)) = some ([], 9) := by decide
theorem test_F5_hlt_at_255 : seen 7 (step (code 255 [0x01])) = some (0xF4, 256, true, 0, 0) := by decide
theorem test_H1_hlt_stops : next? (step (after (step (code 5 [0x01, 0x47])))) = next? (step (code 5 [0x01, 0x47])) := by decide
theorem test_S2_push_r7 : (next? (step (code 0 [0x45, 0x07]))).map (fun t => (t.sp, t.mem.read 0xF3)) = some (0xF3, 0xF3) := by decide
theorem test_S4_push_wraps : (next? (step (codeWith 0 [0x45, 0x02] 7 0 2 9))).map (fun t => (t.sp, t.mem.read 0xFF)) =
    some (0xFF, 9) := by decide
theorem test_S5_pop_wraps : (next? (step ((codeWith 0 [0x46, 0x03] 7 0xFF 3 0).writeByte 0xFF 9))).map (fun t => (t.reg 3, t.sp)) =
    some (9, 0) := by decide
theorem test_S6_pop_r7 : (next? (step ((codeWith 0 [0x46, 0x07] 7 0x80 0 0).writeByte 0x80 0x20))).map (·.sp) = some 0x21 := by decide
theorem test_C2_call_r7 : (next? (step (code 0 [0x50, 0x07]))).map (fun t => (t.sp, t.mem.read 0xF3, t.pc)) =
    some (0xF3, 2, 0xF3) := by decide
theorem test_C3_call_at_254 : (next? (step (code 254 [0x50, 0x01]))).map (fun t => (t.sp, t.mem.read 0xF3, t.pc, t.faultInfo)) =
    some (0xF4, 0, 254, 256) := by decide
theorem test_C5_ret : seen 7 (step ((codeWith 11 [0x11] 7 0xF3 0 0).writeByte 0xF3 5)) = some (0xF4, 5, false, 0, 0) := by decide
theorem test_C6_ret_wraps : seen 7 (step ((codeWith 0 [0x11] 7 0xFF 0 0).writeByte 0xFF 0x40)) = some (0, 0x40, false, 0, 0) := by decide
theorem test_C7_jmp : seen 2 (step (codeWith 0 [0x54, 0x02] 2 0x10 0 0)) = some (0x10, 0x10, false, 0, 0) := by decide
theorem test_C8_jeq_taken : seen 3 (step (withFlags true false false (codeWith 20 [0x55, 0x03] 3 12 0 0))) =
    some (12, 12, false, 0, 0) := by decide
theorem test_C15_jeq_reads_e_only : seen 3 (step (withFlags false true false (codeWith 20 [0x55, 0x03] 3 12 0 0))) =
    some (12, 22, false, 0, 0) := by decide
theorem test_C10_jne_taken : seen 3 (step (codeWith 20 [0x56, 0x03] 3 12 0 0)) = some (12, 12, false, 0, 0) := by decide
theorem test_C11_jne_not_taken : seen 3 (step (withFlags true false false (codeWith 20 [0x56, 0x03] 3 12 0 0))) =
    some (12, 22, false, 0, 0) := by decide

/-! ### Loading (2.7) -/

/-- HALTED, FAULT_CAUSE and FAULT_INFO after a load. -/
def loaded (img : Option (List Int)) : Bool × Nat × Nat :=
  ((boot img).halted, (boot img).faultCause.toNat, (boot img).faultInfo.toNat)

theorem test_LD1_absent : loaded none = (true, 5, 1) := by decide
theorem test_LD2_257_bytes : loaded (some (List.replicate 257 0)) = (true, 5, 2) := by decide +kernel
theorem test_LD3_300 : loaded (some [0x82, 300, 0]) = (true, 5, 3) := by decide
theorem test_LD4_empty : seen 0 (step (boot (some []))) = some (0, 0, true, 1, 0) := by decide
theorem test_LD5_256_bytes : loaded (some (List.replicate 256 1)) = (false, 0, 0) ∧
    (boot (some (List.replicate 256 1))).mem.read 255 = 1 := by decide +kernel

/-! ### Ports and assembly -/

theorem test_accesses_of_push : accesses Config.default (code 0 [0x45, 0x07]) =
    [.read 0 0x45, .read 1 0x07, .write 0xF3 0xF3] := by decide
theorem test_accesses_of_pop : accesses Config.default ((codeWith 6 [0x46, 0x01] 7 0xF3 0 0).writeByte 0xF3 5) =
    [.read 6 0x46, .read 7 0x01, .read 0xF3 5] := by decide
theorem test_accesses_of_an_illegal_opcode : accesses Config.default (code 254 [0xC0]) = [.read 254 0xC0] := by decide
theorem test_status_port_of_a_fault : statusPort (after (step (code 256 []))) =
    { halted := 1, faultCause := 2, faultInfo := 256 } := by decide
theorem test_parse_ldi : parseLine Config.default "LDI R0, 8".toList = some (.ldi 0 8) ∧
    parseLine Config.default "LOAD-IMMEDIATE R7,0xF4".toList = some (.ldi 7 0xF4) := by decide
theorem test_parse_refuses : parseLine Config.default "LDI R8, 8".toList = none ∧ parseLine Config.default "LDI R0, 256".toList = none ∧
    parseLine Config.default "PUSH".toList = none ∧ parseLine noSubDiv "SUB R0, R1".toList = none := by decide
theorem test_parse_operand_order : parseLine Config.default "SUB R2, R3".toList = some (.sub 2 3) ∧
    parseLine Config.default "HALT".toList = some .hlt := by decide
/-- The text of W2 (95_test_vectors.md), with a comment-only line and a blank line. -/
theorem test_W2_image_text :
    parseImage "# W2\n10000010 # LDI R0,8\n00000000\n\n00001000\n01000111 # PRN R0\n00000000\n00000001 # HLT\nLDI".toList =
      [0x82, 0x00, 0x08, 0x47, 0x00, 0x01] := by decide +kernel
theorem test_output_text : renderOutput [8, 120] = "8\n120\n".toList := by decide

/-! ### Witnesses: states and operands that meet the hypotheses of each statement, a clause each, at the ends of their ranges -/

theorem witness_OpcodeTableHasTheRowsOfTheSpec : (⟨.ldi, 0x82, 2, false, false⟩ : Row) ∈ rows ∧ (⟨.sub, 0xA1, 2, false, true⟩ : Row) ∈ rows := by
  simp [rows]
theorem witness_WordsOfTheSpecDecode : decode Config.default [0x82, 0x00, 0x08] = .ok (.ldi 0 8, []) := by decide
theorem witness_BytesWithoutHandler : 192 ≤ (0xC0 : Byte).toNat ∧ 192 ≤ (0xFF : Byte).toNat ∧
    State.reset.Running ∧ State.reset.pc.toNat < 256 ∧ opcodeTable Config.default (State.reset.mem.read State.reset.pc.toNat) = none ∧
    (code 255 [0xC0]).Running ∧ (code 255 [0xC0]).pc.toNat < 256 ∧
    opcodeTable Config.default ((code 255 [0xC0]).mem.read (code 255 [0xC0]).pc.toNat) = none := by decide
theorem witness_DecodeIsAFunctionOfTheByte :
    (decodeOpcode noSubDiv 0x82).handler = some .ldi ∧ Handler.ldi ∉ [Handler.add, .sub, .mul, .div, .cmp] ∧
    (decodeOpcode Config.default 0xA3).handler = some .div ∧ Handler.div ∈ [Handler.add, .sub, .mul, .div, .cmp] := by decide
theorem witness_DecodeOfEncode : (Instr.hlt).WellFormed noSubDiv ∧ (Instr.div 255 255).WellFormed Config.default := by decide
theorem witness_EncodeOfDecode : decode noSubDiv [0x45, 0xFF, 0x01] = .ok (.push 0xFF, [0x01]) := by decide
theorem witness_FirstByteTellsTheLength : decode Config.default (0x01 :: []) = .ok (.hlt, []) ∧
    decode Config.default (0xA3 :: [255, 255, 7]) = .ok (.div 255 255, [7]) := by decide
theorem witness_AssemblyReadsBack : (Instr.ldi 7 255).WellFormed noSubDiv ∧ (Instr.ldi 7 255).RegsInRange ∧
    (Instr.sub 7 0).WellFormed Config.default ∧ (Instr.sub 7 0).RegsInRange := by decide
theorem witness_AluAddSubMul : (5 : Byte).toNat ≤ (5 : Byte).toNat ∧ (4 : Byte).toNat < (5 : Byte).toNat := by decide
theorem witness_AluDiv : (0 : Byte).toNat = 0 ∧ (1 : Byte).toNat ≠ 0 := by decide
theorem witness_AluUnsupported : (4 : BitVec 4).toNat ∉ [0, 1, 2, 3, 7] ∧ (15 : BitVec 4).toNat ∉ [0, 1, 2, 3, 7] ∧
    (7 : Byte).toNat < 8 ∧ (decodeOpcode Config.default 0xA7).aluOp = some 7 := by decide
/-- Both operands in range, opA out of range, opB out of range: the clauses of ADD, MUL and CMP, and those of SUB and DIV beside their
own. -/
theorem witness_two_register_operands : (7 : Byte).toNat < 8 ∧ (0 : Byte).toNat < 8 ∧ 8 ≤ (8 : Byte).toNat ∧ 8 ≤ (255 : Byte).toNat := by
  decide
theorem witness_Sub : (code 255 [0xA1]).Running ∧ (code 255 [0xA1]).pc.toNat < 256 ∧
    (code 255 [0xA1]).mem.read (code 255 [0xA1]).pc.toNat = 0xA1 := by decide
theorem witness_Div : (code 255 [0xA3]).Running ∧ (code 255 [0xA3]).pc.toNat < 256 ∧
    (code 255 [0xA3]).mem.read (code 255 [0xA3]).pc.toNat = 0xA3 ∧
    State.reset.reg 7 ≠ 0 ∧ State.reset.reg 0 = 0 := by decide
/-- The one register operand of LDI, PRN, PUSH, POP, CALL, JMP, JEQ and JNE: in range, R7, not R7, out of range. -/
theorem witness_one_register_operand : (7 : Byte).toNat < 8 ∧ (6 : Byte).toNat < 8 ∧ (7 : Byte).toNat = 7 ∧ (6 : Byte).toNat ≠ 7 ∧
    8 ≤ (8 : Byte).toNat ∧ 8 ≤ (255 : Byte).toNat := by decide
theorem witness_Hlt : (after (exec .hlt State.reset)).halted = true ∧ State.reset.Running := by decide
theorem witness_PushThenPop : (next? (exec (.pop 7) (after (exec (.push 7) State.reset)))).map (·.sp) = some 0xF4 := by decide
theorem witness_Call : (7 : Byte).toNat < 8 ∧ (code 253 []).pc.toNat < 254 ∧
    254 ≤ (code 254 []).pc.toNat ∧ (code 254 []).pc.toNat ≤ 258 ∧ 254 ≤ (code 258 []).pc.toNat ∧ (code 258 []).pc.toNat ≤ 258 := by decide
theorem witness_RetResumes : (code 253 []).pc.toNat < 254 ∧ ∃ t, exec (.call 1) (code 253 []) = .next t ∧
    ∃ v : State, v.sp = t.sp ∧ v.readByte v.sp = t.readByte t.sp := ⟨by decide, _, rfl, _, rfl, rfl⟩
theorem witness_Jeq_Jne : (withFlags true false false State.reset).fl.e = true ∧ (withFlags false true false State.reset).fl.e = false := by
  decide
theorem witness_RegisterIndex : 8 ≤ (8 : Byte).toNat ∧ (7 : Byte).toNat < 8 ∧
    (Instr.add 7 8).regOperands.find? (fun r => 8 ≤ r.toNat) = some 8 ∧
    (Instr.add 255 8).regOperands.find? (fun r => 8 ≤ r.toNat) = some 255 := by decide
theorem witness_RegistersReadAndWritten : (∃ t, exec (.pop 0) State.reset = .next t) ∧ (1 : Fin 8).val ∉ writesRegs (.pop 0) ∧
    (0 : Fin 8).val ∉ readsRegs (.pop 0) ∧ (0 : Fin 8).val ∈ writesRegs (.pop 0) ∧
    (7 : Fin 8).val ∉ readsRegs (.ldi 7 0) ∧ (7 : Fin 8).val ∈ writesRegs (.ldi 7 0) :=
  ⟨⟨_, rfl⟩, by decide, by decide, by decide, by decide, by decide⟩
theorem witness_OnlyCmpWritesFlags : (∀ a b, Instr.jeq 3 ≠ .cmp a b) ∧ (∃ t, exec (.jeq 3) State.reset = .next t) ∧
    (withFlags false true false State.reset).fl.e = State.reset.fl.e ∧ (Instr.cmp 7 7).RegsInRange ∧
    ¬ (Instr.cmp 8 7).RegsInRange ∧ ¬ (Instr.cmp 7 255).RegsInRange ∧
    (∃ t, exec (.cmp 7 7) State.reset = .next t) ∧ State.reset.fl = State.reset.fl :=
  ⟨(fun _ _ h => by cases h), ⟨_, rfl⟩, by decide, by decide, by decide, by decide, ⟨_, rfl⟩, rfl⟩
theorem witness_OnlyPushAndCallStore : (∃ t, exec (.push 7) State.reset = .next t ∧ (0xF3 : Byte) ∈ storesAt (.push 7) State.reset) ∧
    ∃ t, exec (.ret) State.reset = .next t := ⟨⟨_, rfl, by decide⟩, _, rfl⟩
theorem witness_OnlyPrn : ∃ t, exec (.prn 7) State.reset = .next t ∧ outputPort State.reset t = some 0xF4 := ⟨_, rfl, by decide⟩
theorem witness_PcAdvances : setsPc 0x50 = true ∧ State.reset.faultCause = 0 ∧
    (∃ t, exec (.ldi 7 1) State.reset = .next t ∧ t.faultCause = 0 ∧ setsPc (Instr.ldi 7 1).handler.opcode = false) ∧
    ∃ t, exec (.ldi 8 1) State.reset = .next t ∧ t.faultCause ≠ 0 :=
  ⟨by decide, by decide, ⟨_, rfl, by decide, by decide⟩, _, rfl, by decide⟩
theorem witness_AccessOutside : 256 ≤ (256 : Addr).toNat ∧ 256 ≤ (511 : Addr).toNat ∧ (255 : Addr).toNat < 256 := by decide
theorem witness_WriteChanges : (254 : Nat) ≠ 255 ∧ Memory.wf [(0, 1), (255, 2)] = true ∧ 255 < 256 := by decide
theorem witness_Canonical : Memory.wf (Memory.write [(0, 1)] 255 2) = true ∧ Memory.wf [(0, 1), (255, 2)] = true ∧
    ∀ a, a < 256 → Memory.read (Memory.write [(0, 1)] 255 2) a = Memory.read [(0, 1), (255, 2)] a :=
  ⟨by decide, by decide, fun _ _ => rfl⟩
/-- Program P5 of 95_test_vectors.md at its PUSH of R0 over the next opcode: the next fetch latches the stored byte 0x01. -/
theorem test_P5_stored_opcode_is_fetched :
    (fetch Config.default (after (step (codeWith 6 [0x45, 0x00, 0x47, 0x00, 0x01] 7 9 0 1)))).1.latch.ir = 0x01 := by decide
/-- PUSH R0 over the next opcode; PUSH R7 over the next instruction's first operand; CALL R7, which jumps to the byte it pushes. -/
theorem witness_StoredByte :
    (let s := codeWith 6 [0x45, 0x00, 0x47, 0x00, 0x01] 7 9 0 1
     s.Running ∧ (decode Config.default (bytesFromPc s)).toOption.map (·.1) = some (.push 0) ∧
       (after (step s)).pc.toNat = s.decSp.sp.toNat) ∧
    (let s := codeWith 2 [0x45, 0x07, 0x47, 0x00] 7 6 0 0
     s.Running ∧ (decode Config.default (bytesFromPc s)).toOption.map (·.1) = some (.push 7) ∧
       (after (step s)).pc.toNat + 1 + 0 = s.decSp.sp.toNat ∧
       (fetch Config.default (after (step s))).2.toOption = some (.prn 5)) ∧
    (let s := code 253 [0x50, 0x07]
     s.Running ∧ s.pc.toNat < 254 ∧ (decode Config.default (bytesFromPc s)).toOption.map (·.1) = some (.call 7) ∧
       (after (step s)).pc.toNat = s.decSp.sp.toNat) := by decide
theorem witness_MemoryPort : (∃ t, stepWith noSubDiv (code 0 [0x45, 0x07]) = .next t ∧ t.mem ≠ (code 0 [0x45, 0x07]).mem) ∧
    Access.read 255 0x01 ∈ accesses noSubDiv (code 255 [0x01]) := ⟨⟨_, rfl, by decide⟩, by decide⟩
theorem witness_BytesNotRead :
    ∀ x v : Byte, Access.read x v ∈ accesses noSubDiv (code 0 [0x46, 0x00]) → Memory.read [(0, 0x46), (7, 9)] x.toNat = v := by
  have reads : accesses noSubDiv (code 0 [0x46, 0x00]) = [.read 0 0x46, .read 1 0x00, .read 0xF4 0x00] := by decide
  rw [reads]
  intro x v h
  simp only [List.mem_cons, Access.read.injEq, List.not_mem_nil, or_false] at h
  obtain ⟨rfl, rfl⟩ | ⟨rfl, rfl⟩ | ⟨rfl, rfl⟩ := h <;> decide
theorem witness_StepRuns : (code 253 [0x82, 7, 9]).Running ∧
    decode noSubDiv (bytesFromPc (code 253 [0x82, 7, 9])) = .ok (.ldi 7 9, []) := by decide
/-- A failing check of each kind, at the place where two meet, and none. -/
theorem witness_FirstFailingCheck : (code 256 []).Running ∧
    firstFailingCheck Config.default (code 256 []) = some (2, 256) ∧
    firstFailingCheck Config.default (code 255 [0xC0]) = some (1, 0xC0) ∧
    firstFailingCheck Config.default (code 255 [0x47]) = some (2, 256) ∧
    firstFailingCheck Config.default (code 254 [0x82, 0xFF]) = some (2, 256) ∧
    firstFailingCheck Config.default (code 253 [0xA3, 0x08, 0xFF]) = some (2, 8) ∧
    firstFailingCheck Config.default (code 253 [0xA3, 0x07, 0x00]) = some (3, 0) ∧
    firstFailingCheck Config.default (code 254 [0x50, 0x08]) = some (2, 8) ∧
    firstFailingCheck Config.default (code 254 [0x50, 0x07]) = some (2, 256) ∧
    firstFailingCheck Config.default (code 253 [0x50, 0x07]) = none := by decide
theorem witness_Faults : State.reset.Running ∧ State.reset.faultCause = 0 ∧
    ∃ t, stepWith noSubDiv State.reset = .next t ∧ t.faultCause ≠ 0 := ⟨by decide, by decide, _, rfl, by decide⟩
theorem witness_Halted_and_Reset : State.reset.halt.halted = true := rfl
theorem witness_OnlyHlt : (code 255 [0x01]).Running ∧ (code 255 [0x01]).faultCause = 0 ∧ (code 255 [0x01]).pc.toNat < 256 ∧
    (code 255 [0x01]).mem.read (code 255 [0x01]).pc.toNat = 0x01 ∧
    ∃ t, stepWith noSubDiv (code 255 [0x01]) = .next t ∧ t.HaltedNormally :=
  ⟨by decide, by decide, by decide, by decide, _, rfl, by decide⟩
theorem witness_TheParameter : (code 0 [0xA0]).mem.read (code 0 [0xA0]).pc.toNat ≠ 0xA1 ∧
    (code 0 [0xA0]).mem.read (code 0 [0xA0]).pc.toNat ≠ 0xA3 := by decide
theorem witness_Load : 256 < (List.replicate 257 (0 : Int)).length ∧ (List.replicate 256 (256 : Int)).length ≤ 256 ∧
    (∃ v ∈ ([-1] : List Int), v < 0 ∨ 255 < v) ∧ (∃ v ∈ ([256] : List Int), v < 0 ∨ 255 < v) ∧
    (∀ v ∈ ([0, 255] : List Int), 0 ≤ v ∧ v ≤ 255) ∧
    (load none State.reset).faultCause = 5 ∧ State.reset.faultCause ≠ 5 := by decide +kernel
/-- The invariant holds of the reset state, and of states at the ends of its ranges. -/
theorem witness_Inv : State.reset.Inv ∧ (State.reset.setPc 258).Inv ∧ (State.reset.takeFault (outOfBounds (258 : Addr))).Inv :=
  ⟨⟨by decide, by decide, by decide, by decide, by decide⟩, ⟨by decide, by decide, by decide, by decide, by decide⟩,
    ⟨by decide, by decide, by decide, by decide, by decide⟩⟩
/-- A word of three bytes where it just fits, where it does not, and past memory; and one of two bytes where it just fits. -/
theorem witness_StepRunsThePlacedWord : decodeTableWord 24 0x0907A3 = some (.div 7 9) ∧
    (State.reset.setPc 253).pc.toNat + (Instr.div 7 9).operands.length < 256 ∧
    (State.reset.setPc 254).pc.toNat < 256 ∧ 256 ≤ (State.reset.setPc 254).pc.toNat + (Instr.div 7 9).operands.length ∧
    256 ≤ (State.reset.setPc 256).pc.toNat ∧
    decodeTableWord 16 0x0747 = some (.prn 7) ∧ (State.reset.setPc 254).pc.toNat + (Instr.prn 7).operands.length < 256 := by decide

end Sys2Proof.Tests
end

section
/-! PROOFS. The rules of 00_scope.md: the register-index check (R14) and the reach of ENABLE_SUB_DIV (R8). -/

namespace Sys2Proof.Machine

/-! ### Register indices out of range (R14) -/

/-- A second register operand out of range is the fault of an instruction whose first is in range: `exec_badA` for the operands after
the first. -/
theorem exec_badTail {i : Instr} (s : State) {a r : Byte} {l : List Byte} (hi : i.regOperands = a :: l) (ha : a.toNat < 8)
    (hr : r ∈ l) (hr8 : 8 ≤ r.toNat) : exec i s = .next (s.takeFault (outOfBounds r)) := by
  cases i <;> simp only [Instr.regOperands, List.cons.injEq, reduceCtorEq] at hi
  all_goals obtain ⟨rfl, rfl⟩ := hi
  all_goals simp only [List.mem_singleton, List.not_mem_nil] at hr
  all_goals subst hr
  case mul => exact exec_badB (mk := .mul) rfl ha hr8
  case add => exact exec_badB (mk := .add) rfl ha hr8
  case cmp => exact exec_badB (mk := .cmp) rfl ha hr8
  case sub => exact exec_badB (mk := .sub) rfl ha hr8
  case div => exact exec_badB (mk := .div) rfl ha hr8

/-- The first register operand out of range, wherever it stands, is the fault of the instruction. -/
theorem exec_firstBadOperand {i : Instr} (s : State) {r : Byte}
    (hr : i.regOperands.find? (fun r => 8 ≤ r.toNat) = some r) : exec i s = .next (s.takeFault (outOfBounds r)) := by
  have hr8 : 8 ≤ r.toNat := by simpa using List.find?_some hr
  rcases hl : i.regOperands with _ | ⟨a, l⟩
  · simp [hl] at hr
  rcases Nat.lt_or_ge a.toNat 8 with ha | ha
  · have htail : l.find? (fun r => 8 ≤ r.toNat) = some r := by simpa [hl, ha] using hr
    exact exec_badTail s hl ha (List.mem_of_find?_eq_some htail) hr8
  · obtain rfl : a = r := by simpa [hl, ha] using hr
    exact exec_badA i s (by rw [hl]; rfl) ha

/-- An instruction that takes OutOfBounds of a byte raises code 2 with that byte (60_exceptions.md R86, R87). -/
theorem raisesAt_outOfBounds {i : Instr} {s : State} {r : Byte} (e : exec i s = .next (s.takeFault (outOfBounds r))) :
    RaisesAt i s 2 (zext9 r) := ⟨_, e, rfl⟩

/-- Settles O30, from the two answers of `checkReg` and the first register operand out of range. -/
theorem registerIndexOfEightOrMoreRaisesOutOfBounds : Obligations.RegisterIndexOfEightOrMoreRaisesOutOfBounds :=
  ⟨fun _ h => checkReg_error h, fun _ h => checkReg_ok h,
    fun _ s _ hr => raisesAt_outOfBounds (exec_firstBadOperand s hr)⟩

/-! ### The parameter (R8) -/

/-- The parameter stands in the rows of SUB and DIV only (30_encoding.md R49). -/
theorem opcodeTable_congr_config (cfg cfg' : Config) {ir : Byte} (hsub : ir ≠ 0xA1) (hdiv : ir ≠ 0xA3) :
    opcodeTable cfg ir = opcodeTable cfg' ir := by
  simp only [opcodeTable, hsub, hdiv, false_and, if_false]

/-- A fetch depends on the parameter through the look-up of the byte at `pc` alone. -/
theorem fetch_congr_config {cfg cfg' : Config} {s : State}
    (h : opcodeTable cfg (s.mem.read s.pc.toNat) = opcodeTable cfg' (s.mem.read s.pc.toNat)) :
    fetch cfg s = fetch cfg' s := by
  rcases Nat.lt_or_ge s.pc.toNat 256 with hp | hp
  · simp only [fetch, State.memRead_eq s hp, decodeOpcode, h]
  · rw [fetch_pcOutside cfg hp, fetch_pcOutside cfg' hp]

/-- Settles O49: a step takes the parameter to its fetch, and the fetch to the opcode table. -/
theorem theParameterMattersToSubAndDivOnly : Obligations.TheParameterMattersToSubAndDivOnly := by
  intro cfg cfg' s hsub hdiv
  have hfetch : fetch cfg s = fetch cfg' s := fetch_congr_config (opcodeTable_congr_config cfg cfg' hsub hdiv)
  simp only [stepWith, hfetch]

end Sys2Proof.Machine
end

section
/-! PROOFS. What an instruction can do to the state, with its faults, flags and registers named; from it, that every step keeps the
invariant of the machine (10_state.md R22, R25, 60_exceptions.md R86, R87). -/

namespace Sys2Proof.Machine

open Sys2Proof.Laws Sys2Proof.Statement

/-! ### The pc update as a write of `pc` -/

theorem State.pcControl_opcode (s : State) (h : Handler) : s.pcControl h.opcode = s.setPc (s.pc + pcStep h) := by
  have eq_setPc : s.pcControl h.opcode = s.setPc (s.pcControl h.opcode).pc := by
    unfold State.pcControl; split <;> rfl
  rw [eq_setPc, State.pcControl_opcode_pc]

/-- A handler that sets `pc` keeps the `pc` it made (30_encoding.md R56). -/
theorem State.pcControl_of_pcStep_zero (s : State) {h : Handler} (h0 : pcStep h = 0) : s.pcControl h.opcode = s := by
  have : s.pc + pcStep h = s.pc := by rw [h0]; exact BitVec.add_zero _
  rw [State.pcControl_opcode, this]; rfl

/-! ### The effect of every instruction -/

/-- An instruction's register operands are all in range, or there is a first that is not. -/
theorem regsInRange_or_firstBad (i : Instr) :
    i.RegsInRange ∨ ∃ r, i.regOperands.find? (fun r => 8 ≤ r.toNat) = some r := by
  rcases hf : i.regOperands.find? (fun r => 8 ≤ r.toNat) with _ | r
  · exact .inl (by simpa using hf)
  · exact .inr ⟨r, hf⟩

/-- What an instruction run at `s` leaves: `exec_cases` with the faults, the flags and the written registers told. -/
inductive ExecEffect (s : State) : Instr → State → Prop
  | badIndex {i : Instr} {r : Byte} (hr : r ∈ i.regOperands) (h8 : 8 ≤ r.toNat) :
      ExecEffect s i (s.takeFault (outOfBounds r))
  | zeroDivisor {a b : Byte} (hb : b.toNat < 8) : ExecEffect s (.div a b) (s.takeFault (divideByZero b))
  | returnOutside {a : Byte} (hp : 256 ≤ s.pc.toNat + 2) :
      ExecEffect s (.call a) (s.takeFault (outOfBounds (BitVec.ofNat 9 (s.pc.toNat + 2))))
  | setReg {i : Instr} {a : Byte} (ha : a.toNat < 8) (hw : a.toNat ∈ writesRegs i) (v : Byte) :
      ExecEffect s i ((s.writeReg ⟨a.toNat, ha⟩ v).pcControl i.handler.opcode)
  | compare {a b : Byte} (A B : Byte) : ExecEffect s (.cmp a b) ((s.setFlags (cmpFlags A B)).pcControl Handler.cmp.opcode)
  | print {a : Byte} (v : Byte) : ExecEffect s (.prn a) ((s.emit v).pcControl Handler.prn.opcode)
  | halt : ExecEffect s .hlt (s.halt.pcControl Handler.hlt.opcode)
  | push {a : Byte} (v : Byte) : ExecEffect s (.push a) ((s.decSp.writeByte s.decSp.sp v).pcControl Handler.push.opcode)
  | pop {a : Byte} (ha : a.toNat < 8) (v : Byte) :
      ExecEffect s (.pop a) ((s.writeReg ⟨a.toNat, ha⟩ v).incSp.pcControl Handler.pop.opcode)
  | call {a : Byte} (v target : Byte) :
      ExecEffect s (.call a) ((s.decSp.writeByte s.decSp.sp v).setPc (zext9 target))
  | ret (target : Byte) : ExecEffect s .ret (s.setPc (zext9 target)).incSp
  | jump {i : Instr} (hi : pcStep i.handler = 0) (target : Byte) : ExecEffect s i (s.setPc (zext9 target))
  | noJump {i : Instr} (hi : pcStep i.handler = 0) : ExecEffect s i (s.setPc (s.pc + 2))

/-- A jump is to a byte, or not taken and then past its two bytes (43_control_transfer.md R83 to R85). -/
theorem ExecEffect.jumpIf {i : Instr} (hi : pcStep i.handler = 0) (s : State) (taken : Bool) (target : Byte) :
    ExecEffect s i ((s.setPc (if taken then zext9 target else s.pc + 2)).pcControl i.handler.opcode) := by
  rw [State.pcControl_of_pcStep_zero _ hi]
  cases taken with
  | true => exact .jump hi target
  | false => exact .noJump hi

/-- Every instruction answers a next state, which is one of its effects. -/
theorem exec_effect (i : Instr) (s : State) : ∃ t, exec i s = .next t ∧ ExecEffect s i t := by
  rcases regsInRange_or_firstBad i with hreg | ⟨r, hr⟩
  swap
  · exact ⟨_, exec_firstBadOperand s hr, .badIndex (List.mem_of_find?_eq_some hr) (by simpa using List.find?_some hr)⟩
  cases i <;> simp only [Instr.RegsInRange, Instr.regOperands, List.forall_mem_cons, List.not_mem_nil, false_imp_iff,
    implies_true, and_true] at hreg
  case ldi a imm => exact ⟨_, exec_ldi imm s hreg, .setReg hreg (by simp [writesRegs]) _⟩
  case prn a => exact ⟨_, exec_prn s hreg, .print _⟩
  case hlt => exact ⟨_, exec_hlt s, .halt⟩
  case mul a b => exact ⟨_, exec_mul s hreg.1 hreg.2, .setReg hreg.1 (by simp [writesRegs]) _⟩
  case add a b => exact ⟨_, exec_add s hreg.1 hreg.2, .setReg hreg.1 (by simp [writesRegs]) _⟩
  case sub a b => exact ⟨_, exec_sub s hreg.1 hreg.2, .setReg hreg.1 (by simp [writesRegs]) _⟩
  case div a b =>
    by_cases h0 : s.reg ⟨b.toNat, hreg.2⟩ = 0
    · exact ⟨_, exec_div_zero s hreg.1 hreg.2 h0, .zeroDivisor hreg.2⟩
    · exact ⟨_, exec_div s hreg.1 hreg.2 h0, .setReg hreg.1 (by simp [writesRegs]) _⟩
  case cmp a b => exact ⟨_, exec_cmp s hreg.1 hreg.2, .compare _ _⟩
  case push a => exact ⟨_, exec_push s hreg, .push _⟩
  case pop a => exact ⟨_, exec_pop s hreg, .pop hreg _⟩
  case call a =>
    rcases Nat.lt_or_ge (s.pc.toNat + 2) 256 with hp | hp
    · exact ⟨_, exec_call s hreg hp, State.pcControl_of_pcStep_zero _ (h := .call) rfl ▸ .call _ _⟩
    · exact ⟨_, exec_call_fault s hreg hp, .returnOutside hp⟩
  case ret => exact ⟨_, exec_ret s, State.pcControl_of_pcStep_zero _ (h := .ret) rfl ▸ .ret _⟩
  case jmp a => exact ⟨_, exec_jmp s hreg, .jumpIf rfl s true _⟩
  case jeq a => exact ⟨_, exec_jeq s hreg, .jumpIf rfl s s.fl.e _⟩
  case jne a => exact ⟨_, exec_jne s hreg, .jumpIf rfl s (!s.fl.e) _⟩

/-- `exec_effect` of a known next state. -/
theorem exec_next_effect {i : Instr} {s t : State} (e : exec i s = .next t) : ExecEffect s i t := by
  obtain ⟨t', e', ht⟩ := exec_effect i s
  rw [e] at e'
  cases e'
  exact ht

/-! ### Legal faults (60_exceptions.md R86) -/

/-- A raised fault is a pair of the table of R86: taking it leaves a legal fault status. -/
def FaultRecord.Legal (f : FaultRecord) : Prop := ∀ s : State, (s.takeFault f).FaultStatusLegal

theorem outOfBounds_legal {w : Nat} {v : BitVec w} (h8 : 8 ≤ v.toNat) (h258 : v.toNat ≤ 258) : (outOfBounds v).Legal := by
  intro s
  have hinfo : (zext9 v).toNat = v.toNat := by simp only [zext9, BitVec.toNat_setWidth]; omega
  exact .inr (.inr (.inl ⟨rfl, hinfo ▸ h8, hinfo ▸ h258⟩))

theorem illegalInstruction_legal (ir : Byte) : (illegalInstruction ir).Legal := by
  intro s
  have hinfo : (zext9 ir).toNat ≤ 255 := by rw [zext9_toNat]; have := ir.isLt; omega
  exact .inr (.inl ⟨rfl, hinfo⟩)

theorem divideByZero_legal {b : Byte} (hb : b.toNat < 8) : (divideByZero b).Legal := by
  intro s
  exact .inr (.inr (.inr (.inl ⟨rfl, (zext9_toNat b).symm ▸ hb⟩)))

/-! ### Exactly one flag after a comparison (40_alu.md R66) -/

theorem cmpFlags_cases (A B : Byte) :
    cmpFlags A B = ⟨true, false, false⟩ ∨ cmpFlags A B = ⟨false, true, false⟩ ∨ cmpFlags A B = ⟨false, false, true⟩ := by
  unfold cmpFlags
  dsimp only
  split
  · exact .inl rfl
  split
  · exact .inr (.inl rfl)
  · exact .inr (.inr rfl)

theorem cmpFlags_atMostOne (A B : Byte) : (cmpFlags A B).AtMostOne := by
  rcases cmpFlags_cases A B with h | h | h <;> rw [h] <;> decide

/-! ### What keeps the invariant -/

namespace State.Inv

variable {s : State} (hs : s.Inv)
include hs

theorem takeFault {f : FaultRecord} (hf : f.Legal) : (s.takeFault f).Inv := ⟨hs.mem, hs.pc, hs.flags, hf s, fun _ => rfl⟩
theorem writeReg (k : Fin 8) (v : Byte) : (s.writeReg k v).Inv := ⟨hs.mem, hs.pc, hs.flags, hs.status, hs.fault⟩
theorem setPc {p : Addr} (hp : p.toNat ≤ 258) : (s.setPc p).Inv := ⟨hs.mem, hp, hs.flags, hs.status, hs.fault⟩
theorem setFlags {f : Flags} (hf : f.AtMostOne) : (s.setFlags f).Inv := ⟨hs.mem, hs.pc, hf, hs.status, hs.fault⟩
theorem halt : s.halt.Inv := ⟨hs.mem, hs.pc, hs.flags, hs.status, fun _ => rfl⟩
theorem emit (v : Byte) : (s.emit v).Inv := ⟨hs.mem, hs.pc, hs.flags, hs.status, hs.fault⟩
theorem latch (l : Latches) : { s with latch := l }.Inv := ⟨hs.mem, hs.pc, hs.flags, hs.status, hs.fault⟩

theorem writeByte (x v : Byte) : (s.writeByte x v).Inv :=
  ⟨writeByte_mem_wf hs.mem x v, hs.pc, hs.flags, hs.status, hs.fault⟩

theorem setPc_byte (target : Byte) : (s.setPc (zext9 target)).Inv :=
  hs.setPc (by rw [zext9_toNat]; have := target.isLt; omega)

/-- The pc update of an instruction fetched from memory reaches 258 at most (10_state.md R22). -/
theorem pcControl (hp : s.pc.toNat < 256) (h : Handler) : (s.pcControl h.opcode).Inv := by
  have h3 : (pcStep h).toNat ≤ 3 := by cases h <;> decide
  rw [State.pcControl_opcode]
  exact hs.setPc (by rw [BitVec.toNat_add]; omega)

end State.Inv

/-- No effect of an instruction fetched from memory breaks the invariant. -/
theorem ExecEffect.inv {i : Instr} {s t : State} (ht : ExecEffect s i t) (hs : s.Inv) (hp : s.pc.toNat < 256) : t.Inv := by
  cases ht with
  | badIndex _ h8 => exact hs.takeFault (outOfBounds_legal h8 (by omega))
  | zeroDivisor hb => exact hs.takeFault (divideByZero_legal hb)
  | returnOutside h256 =>
    have hret : (BitVec.ofNat 9 (s.pc.toNat + 2)).toNat = s.pc.toNat + 2 := by rw [BitVec.toNat_ofNat]; omega
    exact hs.takeFault (outOfBounds_legal (by omega) (by omega))
  | setReg ha _ v => exact (hs.writeReg _ v).pcControl hp _
  | compare A B => exact (hs.setFlags (cmpFlags_atMostOne A B)).pcControl hp .cmp
  | print v => exact (hs.emit v).pcControl hp .prn
  | halt => exact hs.halt.pcControl hp .hlt
  | push v => exact ((hs.writeReg _ _).writeByte _ v).pcControl hp .push
  | pop ha v => exact ((hs.writeReg _ v).writeReg _ _).pcControl hp .pop
  | call v target => exact ((hs.writeReg _ _).writeByte _ v).setPc_byte target
  | ret target => exact (hs.setPc_byte target).writeReg _ _
  | jump _ target => exact hs.setPc_byte target
  | noJump => exact hs.setPc (by rw [BitVec.toNat_add]; simp; omega)

/-- A fault raised by the fetch is legal, and taking it keeps the invariant. -/
theorem FetchCases.takeFault_inv {cfg : Config} {s u : State} {f : FaultRecord} (hf : FetchCases cfg s (u, .error f))
    (hs : s.Inv) : (u.takeFault f).Inv := by
  cases hf with
  | pcOutside hp => exact hs.takeFault (outOfBounds_legal (by omega) hs.pc)
  | illegal _ _ l => exact (hs.latch l).takeFault (illegalInstruction_legal _)
  | opAOutside _ _ _ _ l => exact (hs.latch l).takeFault (outOfBounds_legal (by decide) (by decide))
  | opBOutside _ _ _ _ l => exact (hs.latch l).takeFault (outOfBounds_legal (by decide) (by decide))

/-- A fetched instruction stands in memory and has changed the latches alone. -/
theorem FetchCases.fetched_eq {cfg : Config} {s u : State} {i : Instr} (hf : FetchCases cfg s (u, .ok i)) :
    u = { s with latch := latchesOf i s.latch } ∧ s.pc.toNat < 256 := by
  cases hf with
  | fetched _ _ hp => exact ⟨rfl, by omega⟩

/-- A step keeps the invariant: its fetch changes the latches alone, and what follows is a legal fault or an instruction's effect. -/
theorem stepWith_inv {cfg : Config} {s t : State} (hs : s.Inv) (e : stepWith cfg s = .next t) : t.Inv := by
  cases hrun : s.halted with
  | true =>
    rw [stepWith_halted cfg hrun] at e
    cases e
    exact hs
  | false =>
    have hc := fetch_cases cfg s
    rcases stepWith_running cfg hrun with ⟨u, f, hf, hstep⟩ | ⟨u, i, hf, hstep⟩ <;> rw [hf] at hc <;> rw [hstep] at e
    · cases e
      exact hc.takeFault_inv hs
    · obtain ⟨rfl, hp⟩ := hc.fetched_eq
      exact (exec_next_effect e).inv (hs.latch _) hp

/-- Settles O53: every operation of a step keeps the invariant, and each fault it can raise is legal. -/
theorem stepKeepsTheInvariant : Obligations.StepKeepsTheInvariant :=
  ⟨fun _ _ _ hs e => stepWith_inv hs e, fun _ _ hs e => stepWith_inv hs e⟩

end Sys2Proof.Machine
end

section
/-! PROOFS. What an instruction depends on (10_state.md R20, R25, R28): an update of the state that an instruction neither reads nor
overwrites is carried through it; and what a halted block keeps (R26). -/

namespace Sys2Proof.Machine

open Sys2Proof.Laws Sys2Proof.Statement

/-! ### Updates an instruction does not see -/

/-- An update that an instruction cannot tell: the registers it reads, `pc` and memory are as they were, and the update commutes with
every operation the instruction can make. What JEQ and JNE read of FL is not spoken of. -/
structure Unseen (i : Instr) (φ : State → State) : Prop where
  reg : ∀ s (k : Fin 8), k.val ∈ readsRegs i → (φ s).reg k = s.reg k := by intros; rfl
  pc : ∀ s, (φ s).pc = s.pc := by intros; rfl
  readByte : ∀ s x, (φ s).readByte x = s.readByte x := by intros; rfl
  writeReg : ∀ s (k : Fin 8) v, k.val ∈ writesRegs i → (φ s).writeReg k v = φ (s.writeReg k v) := by intros; rfl
  setFlags : ∀ a b, i = .cmp a b → ∀ s f, (φ s).setFlags f = φ (s.setFlags f) := by intros; rfl
  setPc : ∀ s p, (φ s).setPc p = φ (s.setPc p) := by intros; rfl
  halt : ∀ s, (φ s).halt = φ s.halt := by intros; rfl
  emit : ∀ s v, (φ s).emit v = φ (s.emit v) := by intros; rfl
  writeByte : ∀ s x v, (φ s).writeByte x v = φ (s.writeByte x v) := by intros; rfl
  takeFault : ∀ s f, (φ s).takeFault f = φ (s.takeFault f) := by intros; rfl

namespace Unseen

variable {i : Instr} {φ : State → State} (hφ : Unseen i φ)
include hφ

theorem pcControl (s : State) (h : Handler) : (φ s).pcControl h.opcode = φ (s.pcControl h.opcode) := by
  simp only [State.pcControl_opcode, hφ.pc, hφ.setPc]

theorem sp (s : State) (h7 : 7 ∈ readsRegs i) : (φ s).sp = s.sp := hφ.reg s 7 h7

theorem decSp (s : State) (hr : 7 ∈ readsRegs i) (hw : 7 ∈ writesRegs i) : (φ s).decSp = φ s.decSp := by
  rw [State.decSp, hφ.sp s hr, hφ.writeReg s 7 _ hw]; rfl

theorem incSp (s : State) (hr : 7 ∈ readsRegs i) (hw : 7 ∈ writesRegs i) : (φ s).incSp = φ s.incSp := by
  rw [State.incSp, hφ.sp s hr, hφ.writeReg s 7 _ hw]; rfl

end Unseen

/-- An update an instruction does not see is there after it as before it, and nothing else is changed by it. -/
theorem exec_unseen {i : Instr} {φ : State → State} (hφ : Unseen i φ) (s : State)
    (hfl : (∃ a, i = .jeq a ∨ i = .jne a) → (φ s).fl.e = s.fl.e) :
    ∃ t, exec i s = .next t ∧ exec i (φ s) = .next (φ t) := by
  rcases regsInRange_or_firstBad i with hreg | ⟨r, hr⟩
  swap
  · exact ⟨_, exec_firstBadOperand s hr, by rw [exec_firstBadOperand _ hr, hφ.takeFault]⟩
  cases i <;> simp only [Instr.RegsInRange, Instr.regOperands, List.forall_mem_cons, List.not_mem_nil, false_imp_iff,
    implies_true, and_true] at hreg
  case ldi a imm =>
    exact ⟨_, exec_ldi imm s hreg, by
      rw [exec_ldi imm _ hreg, hφ.writeReg, hφ.pcControl]
      simp [writesRegs]⟩
  case prn a =>
    exact ⟨_, exec_prn s hreg, by
      rw [exec_prn _ hreg, hφ.reg, hφ.emit, hφ.pcControl]
      simp [readsRegs]⟩
  case hlt => exact ⟨_, exec_hlt s, by rw [exec_hlt, hφ.halt, hφ.pcControl]⟩
  case mul a b =>
    exact ⟨_, exec_mul s hreg.1 hreg.2, by
      rw [exec_mul _ hreg.1 hreg.2, hφ.reg, hφ.reg, hφ.writeReg, hφ.pcControl] <;> simp [readsRegs, writesRegs]⟩
  case add a b =>
    exact ⟨_, exec_add s hreg.1 hreg.2, by
      rw [exec_add _ hreg.1 hreg.2, hφ.reg, hφ.reg, hφ.writeReg, hφ.pcControl] <;> simp [readsRegs, writesRegs]⟩
  case sub a b =>
    exact ⟨_, exec_sub s hreg.1 hreg.2, by
      rw [exec_sub _ hreg.1 hreg.2, hφ.reg, hφ.reg, hφ.writeReg, hφ.pcControl] <;> simp [readsRegs, writesRegs]⟩
  case div a b =>
    have hb : (φ s).reg ⟨b.toNat, hreg.2⟩ = s.reg ⟨b.toNat, hreg.2⟩ := hφ.reg _ _ (by simp [readsRegs])
    by_cases h0 : s.reg ⟨b.toNat, hreg.2⟩ = 0
    · exact ⟨_, exec_div_zero s hreg.1 hreg.2 h0, by
        rw [exec_div_zero _ hreg.1 hreg.2 (hb.trans h0), hφ.takeFault]⟩
    · exact ⟨_, exec_div s hreg.1 hreg.2 h0, by
        rw [exec_div _ hreg.1 hreg.2 (hb ▸ h0), hb, hφ.reg, hφ.writeReg, hφ.pcControl] <;> simp [readsRegs, writesRegs]⟩
  case cmp a b =>
    exact ⟨_, exec_cmp s hreg.1 hreg.2, by
      rw [exec_cmp _ hreg.1 hreg.2, hφ.reg, hφ.reg, hφ.setFlags a b rfl, hφ.pcControl] <;> simp [readsRegs]⟩
  case push a =>
    exact ⟨_, exec_push s hreg, by
      rw [exec_push _ hreg, hφ.decSp, hφ.sp, hφ.reg, hφ.writeByte, hφ.pcControl] <;> simp [readsRegs, writesRegs]⟩
  case pop a =>
    exact ⟨_, exec_pop s hreg, by
      rw [exec_pop _ hreg, hφ.sp, hφ.readByte, hφ.writeReg, hφ.incSp, hφ.pcControl] <;> simp [readsRegs, writesRegs]⟩
  case call a =>
    rcases Nat.lt_or_ge (s.pc.toNat + 2) 256 with hp | hp
    · exact ⟨_, exec_call s hreg hp, by
        rw [exec_call _ hreg (by rwa [hφ.pc]), hφ.pc, hφ.decSp, hφ.sp, hφ.reg, hφ.writeByte, hφ.setPc, hφ.pcControl]
          <;> simp [readsRegs, writesRegs]⟩
    · exact ⟨_, exec_call_fault s hreg hp, by rw [exec_call_fault _ hreg (by rwa [hφ.pc]), hφ.pc, hφ.takeFault]⟩
  case ret =>
    exact ⟨_, exec_ret s, by
      rw [exec_ret, hφ.sp, hφ.readByte, hφ.setPc, hφ.incSp, hφ.pcControl] <;> simp [readsRegs, writesRegs]⟩
  case jmp a =>
    exact ⟨_, exec_jmp s hreg, by
      rw [exec_jmp _ hreg, hφ.reg, hφ.setPc, hφ.pcControl]
      simp [readsRegs]⟩
  case jeq a =>
    exact ⟨_, exec_jeq s hreg, by
      rw [exec_jeq _ hreg, hfl ⟨a, .inl rfl⟩, hφ.reg, hφ.pc, hφ.setPc, hφ.pcControl]
      simp [readsRegs]⟩
  case jne a =>
    exact ⟨_, exec_jne s hreg, by
      rw [exec_jne _ hreg, hfl ⟨a, .inr rfl⟩, hφ.reg, hφ.pc, hφ.setPc, hφ.pcControl]
      simp [readsRegs]⟩

/-! ### Registers (R20) -/

theorem State.writeReg_comm (s : State) {j k : Fin 8} (v w : Byte) (h : j ≠ k) :
    (s.writeReg k v).writeReg j w = (s.writeReg j w).writeReg k v := by
  simp only [State.writeReg, Vector.set_comm _ _ (Fin.val_ne_of_ne h.symm)]

theorem State.writeReg_writeReg_same (s : State) (k : Fin 8) (v w : Byte) :
    (s.writeReg k v).writeReg k w = s.writeReg k w := by
  simp only [State.writeReg, Vector.set_set]

/-- A register that is not listed as written is kept. -/
theorem ExecEffect.reg_eq {i : Instr} {s t : State} (ht : ExecEffect s i t) {k : Fin 8} (hk : k.val ∉ writesRegs i) :
    t.reg k = s.reg k := by
  have ne_sp : 7 ∈ writesRegs i → k ≠ Config.spIndex := fun h7 e => hk (e ▸ h7)
  cases ht with
  | badIndex | zeroDivisor | returnOutside => rfl
  | setReg ha hw =>
    have hne : k ≠ ⟨_, ha⟩ := fun e => hk (e ▸ hw)
    rw [State.pcControl_reg, State.reg_writeReg_other _ _ hne]
  | compare | print | halt | jump | noJump => simp
  | push | call => simp [State.decSp_reg, ne_sp (by simp [writesRegs])]
  | pop ha =>
    have hne : k ≠ ⟨_, ha⟩ := fun e => hk (by simp [writesRegs, e])
    simp [State.incSp_reg, ne_sp (by simp [writesRegs]), State.reg_writeReg_other _ _ hne]
  | ret => simp [State.incSp_reg, ne_sp (by simp [writesRegs])]

/-- An instruction does not see a register it neither reads nor writes. -/
theorem unseen_writeReg {i : Instr} {k : Fin 8} (v : Byte) (hr : k.val ∉ readsRegs i) (hw : k.val ∉ writesRegs i) :
    Unseen i (·.writeReg k v) where
  reg s _ hj := State.reg_writeReg_other s v fun e => hr (e ▸ hj)
  writeReg s _ w hj := State.writeReg_comm s v w fun e => hw (e ▸ hj)

/-- A register that is written and not read is the destination of LDI or of POP, and what it held is lost. -/
theorem exec_overwritten {i : Instr} (s : State) {k : Fin 8} (v : Byte) (hr : k.val ∉ readsRegs i) (hw : k.val ∈ writesRegs i) :
    exec i (s.writeReg k v) = exec i s := by
  obtain ⟨k, hk⟩ := k
  cases i <;> simp only [readsRegs, writesRegs, List.mem_cons, List.not_mem_nil, or_false, not_or] at hr hw
  case ldi a imm =>
    subst hw
    rw [exec_ldi imm _ hk, exec_ldi imm _ hk, State.writeReg_writeReg_same]
  case pop a =>
    obtain rfl : k = a.toNat := by omega
    have hsp : (s.writeReg ⟨a.toNat, hk⟩ v).sp = s.sp := State.reg_writeReg_other s v fun e => hr (congrArg Fin.val e).symm
    rw [exec_pop _ hk, exec_pop _ hk, State.writeReg_writeReg_same, hsp, State.writeReg_readByte]
  case mul | add | sub | div | push | call | ret => omega

/-- Settles O31: a register outside both lists is carried through, and one written unread is lost. -/
theorem registersReadAndWrittenAreTheListedOnes : Obligations.RegistersReadAndWrittenAreTheListedOnes := by
  refine ⟨fun i s t e k hk => (exec_next_effect e).reg_eq hk, fun i s k v hr => ?_⟩
  by_cases hw : k.val ∈ writesRegs i
  · obtain ⟨t, e, -⟩ := exec_effect i s
    exact ⟨t, t, e, (exec_overwritten s v hr hw).trans e, fun _ _ => rfl, rfl⟩
  · obtain ⟨t, e, e'⟩ := exec_unseen (unseen_writeReg v hr hw) s fun _ => rfl
    exact ⟨t, t.writeReg k v, e, e', fun j hj => State.reg_writeReg_other t v (hj.resolve_right hw), rfl⟩

/-! ### The flags (R25) -/

/-- Only CMP writes FL. -/
theorem ExecEffect.fl_eq {i : Instr} {s t : State} (ht : ExecEffect s i t) (hi : ∀ a b, i ≠ .cmp a b) : t.fl = s.fl := by
  cases ht with
  | compare => exact absurd rfl (hi _ _)
  | badIndex | zeroDivisor | returnOutside => rfl
  | _ => simp

/-- No instruction but CMP sees FL, apart from what JEQ and JNE read of it. -/
theorem unseen_setFlags {i : Instr} (f : Flags) (hi : ∀ a b, i ≠ .cmp a b) : Unseen i (·.setFlags f) where
  setFlags a b h := absurd h (hi a b)

theorem cmpFlags_exactlyOne (A B : Byte) :
    (cmpFlags A B).e.toNat + (cmpFlags A B).l.toNat + (cmpFlags A B).g.toNat = 1 := by
  rcases cmpFlags_cases A B with h | h | h <;> rw [h] <;> rfl

theorem cmp_regsInRange {a b : Byte} : (Instr.cmp a b).RegsInRange ↔ a.toNat < 8 ∧ b.toNat < 8 := by
  simp [Instr.RegsInRange, Instr.regOperands]

/-- Settles O32: CMP writes FL as its operands compare, and no other instruction sees FL but for the E that JEQ and JNE read. -/
theorem onlyCmpWritesFlagsAndOnlyJeqJneReadEqual : Obligations.OnlyCmpWritesFlagsAndOnlyJeqJneReadEqual := by
  refine ⟨fun i s t hi e => (exec_next_effect e).fl_eq hi, fun a b s f => ⟨fun hreg => ?_, fun hreg => ?_⟩,
    fun i s f hi hfl => ?_, fun a b s t hreg e => ?_, rfl, fun a s ha hfl => ⟨?_, ?_⟩⟩
  · obtain ⟨ha, hb⟩ := cmp_regsInRange.mp hreg
    rw [exec_cmp _ ha hb, exec_cmp _ ha hb]; rfl
  · obtain ⟨r, hr⟩ := (regsInRange_or_firstBad _).resolve_left hreg
    exact ⟨_, exec_firstBadOperand s hr, exec_firstBadOperand _ hr⟩
  · exact exec_unseen (unseen_setFlags f hi) s hfl
  · obtain ⟨ha, hb⟩ := cmp_regsInRange.mp hreg
    rw [exec_cmp _ ha hb] at e
    cases e
    simpa using cmpFlags_exactlyOne _ _
  · exact ⟨_, exec_jeq s ha, by simp [hfl, State.reset, pcStep]⟩
  · exact ⟨_, exec_jne s ha, by simp [hfl, State.reset, pcStep]⟩

/-! ### The latches (R28) -/

/-- The state with other latches. -/
def State.setLatch (s : State) (l : Latches) : State := { s with latch := l }

/-- No instruction sees the latches: only the fetch uses them. -/
theorem unseen_setLatch (i : Instr) (l : Latches) : Unseen i (·.setLatch l) := {}

theorem fetch_illegal {cfg : Config} {s : State} (h : s.pc.toNat < 256)
    (ht : opcodeTable cfg (s.mem.read s.pc.toNat) = none) :
    ∃ l, fetch cfg s = (s.setLatch l, .error (illegalInstruction (s.mem.read s.pc.toNat))) := by
  simp only [fetch, State.memRead_eq s h, decodeOpcode, ht]
  exact ⟨_, rfl⟩

/-- A fetch answers the same from any latches, and differs in them alone. -/
theorem fetch_setLatch (cfg : Config) (s : State) (l : Latches) :
    ∃ l', fetch cfg (s.setLatch l) = ((fetch cfg s).1.setLatch l', (fetch cfg s).2) := by
  have hc := fetch_cases cfg s
  generalize fetch cfg s = r at hc
  cases hc with
  | pcOutside hp => exact ⟨l, fetch_pcOutside cfg hp⟩
  | illegal hp ht => exact fetch_illegal (s := s.setLatch l) hp ht
  | opAOutside hd ht hn hp =>
    exact fetch_operandOutside (s := s.setLatch l) ht (show s.pc.toNat < 256 by omega) (show 256 ≤ s.pc.toNat + _ by omega)
  | opBOutside hd ht hn hp =>
    exact fetch_operandOutside (s := s.setLatch l) ht (show s.pc.toNat < 256 by omega) (show 256 ≤ s.pc.toNat + _ by omega)
  | fetched hd ht hp i hi => subst hi; exact ⟨_, fetch_fetched (s := s.setLatch l) ht hp⟩

theorem stepWith_of_fetch_error {cfg : Config} {s u : State} {f : FaultRecord} (h : s.halted = false)
    (hf : fetch cfg s = (u, .error f)) : stepWith cfg s = .next (u.takeFault f) := by simp [stepWith, h, hf]

theorem stepWith_of_fetch_ok {cfg : Config} {s u : State} {i : Instr} (h : s.halted = false)
    (hf : fetch cfg s = (u, .ok i)) : stepWith cfg s = exec i u := by simp [stepWith, h, hf]

/-- A step from other latches answers the same next state but for its latches. -/
theorem stepWith_setLatch (cfg : Config) (s : State) (l : Latches) :
    ∃ t l', stepWith cfg s = .next t ∧ stepWith cfg (s.setLatch l) = .next (t.setLatch l') := by
  cases hrun : s.halted with
  | true => exact ⟨s, l, stepWith_halted cfg hrun, stepWith_halted cfg (s := s.setLatch l) hrun⟩
  | false =>
    have hrun' : (s.setLatch l).halted = false := hrun
    obtain ⟨l', hl⟩ := fetch_setLatch cfg s l
    rcases hf : fetch cfg s with ⟨u, f | i⟩ <;> rw [hf] at hl
    · exact ⟨u.takeFault f, l', stepWith_of_fetch_error hrun hf, stepWith_of_fetch_error hrun' hl⟩
    · obtain ⟨t, e, e'⟩ := exec_unseen (unseen_setLatch i l') u fun _ => rfl
      exact ⟨t, l', (stepWith_of_fetch_ok hrun hf).trans e, (stepWith_of_fetch_ok hrun' hl).trans e'⟩

/-- Settles O36: the fetch answers the same from any latches, and the instruction does not see them. -/
theorem stepDoesNotDependOnTheLatches : Obligations.StepDoesNotDependOnTheLatches := stepWith_setLatch

/-! ### The halted block (R26) -/

theorem runWith_halted (cfg : Config) {s : State} (h : s.halted = true) (k : Nat) : runWith cfg k s = s := by
  induction k with
  | zero => rfl
  | succ k ih => rw [runWith, stepWith_halted cfg h]; exact ih

/-- Settles O47, by induction on the number of steps for a run. -/
theorem haltedBlockChangesNoState : Obligations.HaltedBlockChangesNoState :=
  fun cfg _ h => ⟨stepWith_halted cfg h, runWith_halted cfg h, by simp [accesses, h], by simp [statusPort, h]⟩

end Sys2Proof.Machine
end

section
/-! PROOFS. The rules of 20_memory.md about memory itself: one write changes one byte (R39), an access is checked against the 256
addresses (R34), the canonical form holds no more than the bytes (R33), and only PUSH and CALL store (R36). -/

namespace Sys2Proof.Machine

open Sys2Proof.Laws Sys2Proof.Statement

/-! ### Reads and writes (R33, R39) -/

/-- Settles O38: `Memory.read_write` at the address written and at another, and `Memory.wf_write`. -/
theorem writeChangesExactlyOneByte : Obligations.WriteChangesExactlyOneByte := by
  refine fun m a v => ⟨?_, fun x hx => ?_, fun hm ha => Memory.wf_write hm v ha⟩
  · rw [Memory.read_write, if_pos rfl]
  · rw [Memory.read_write, if_neg hx]

theorem Memory.read_cons_head (c : Host.Cell) (m : Memory) : Memory.read (c :: m) c.1 = c.2 := if_pos rfl

/-- A canonical memory that lists a byte does not read as 0 everywhere. -/
theorem Memory.not_read_zero {c : Host.Cell} {m : Memory} (h : Memory.wf (c :: m) = true) :
    ¬ ∀ a, a < 256 → Memory.read (c :: m) a = 0 := by
  obtain ⟨hlt, hne, -, -⟩ := (Memory.wf_cons c m).mp h
  exact fun e => hne (Memory.read_cons_head c m ▸ e c.1 hlt)

/-- The first address a canonical memory lists is the first that reads as nonzero, so one that reads alike lists none below it. -/
theorem Memory.head_le_head {c c' : Host.Cell} {m m' : Memory} (h : Memory.wf (c :: m) = true) (h' : Memory.wf (c' :: m') = true)
    (e : ∀ a, a < 256 → Memory.read (c :: m) a = Memory.read (c' :: m') a) : c'.1 ≤ c.1 := by
  obtain ⟨hlt, hne, -, -⟩ := (Memory.wf_cons c m).mp h
  obtain ⟨-, -, hrise', -⟩ := (Memory.wf_cons c' m').mp h'
  by_contra hbelow
  have hc : c.2 = Memory.read (c' :: m') c.1 := by rw [← e c.1 hlt, Memory.read_cons_head]
  refine hne (hc.trans (Memory.read_below fun d hd => ?_))
  rcases List.mem_cons.mp hd with rfl | hd
  · omega
  · have := hrise' d hd; omega

/-- Canonical memories with the same first cell that read alike have tails that read alike: neither tail lists the first address. -/
theorem Memory.read_tail {c : Host.Cell} {m m' : Memory} (h : Memory.wf (c :: m) = true) (h' : Memory.wf (c :: m') = true) {a : Nat}
    (e : Memory.read (c :: m) a = Memory.read (c :: m') a) : m.read a = m'.read a := by
  obtain ⟨-, -, hrise, -⟩ := (Memory.wf_cons c m).mp h
  obtain ⟨-, -, hrise', -⟩ := (Memory.wf_cons c m').mp h'
  by_cases ha : c.1 = a
  · rw [← ha, Memory.read_below hrise, Memory.read_below hrise']
  · simpa only [Memory.read_cons, if_neg ha] using e

/-- Settles O39, by induction on the two lists: their first cells are the same and their tails read alike. -/
theorem canonicalMemoriesThatReadAlikeAreEqual : Obligations.CanonicalMemoriesThatReadAlikeAreEqual := by
  intro m
  induction m with
  | nil =>
    intro m' _ h' e
    cases m' with
    | nil => rfl
    | cons c' m' => exact absurd (fun a ha => (e a ha).symm) (Memory.not_read_zero h')
  | cons c m ih =>
    intro m' h h' e
    cases m' with
    | nil => exact absurd e (Memory.not_read_zero h)
    | cons c' m' =>
      have haddr : c.1 = c'.1 :=
        Nat.le_antisymm (Memory.head_le_head h' h fun a ha => (e a ha).symm) (Memory.head_le_head h h' e)
      have hbyte : c.2 = c'.2 := by
        rw [← Memory.read_cons_head c m, e _ ((Memory.wf_cons c m).mp h).1, haddr, Memory.read_cons_head]
      obtain rfl : c = c' := Prod.ext haddr hbyte
      have htail := ih m' ((Memory.wf_cons c m).mp h).2.2.2 ((Memory.wf_cons c m').mp h').2.2.2
        fun a ha => Memory.read_tail h h' (e a ha)
      rw [htail]

/-! ### The bounds check of an access (R34) -/

theorem outOfBounds_addr (p : Addr) : outOfBounds p = { cause := .outOfBounds, info := p } := by
  rw [outOfBounds, zext9, BitVec.setWidth_eq]

theorem State.memWrite_error (s : State) {p : Addr} (v : Byte) (h : 256 ≤ p.toNat) : s.memWrite p v = .error (outOfBounds p) := by
  simp [State.memWrite, Config.memSize, Nat.not_lt.mpr h]

theorem State.memWrite_eq (s : State) {p : Addr} (v : Byte) (h : p.toNat < 256) :
    s.memWrite p v = .ok { s with mem := s.mem.write p.toNat v } := by
  simp [State.memWrite, State.writeByte, Config.memSize, h, Nat.mod_eq_of_lt h]

/-- Settles O37, from the answers of the two accesses on either side of 256; SP is a byte, so an access there is inside. -/
theorem accessOutsideMemoryRaisesOutOfBounds : Obligations.AccessOutsideMemoryRaisesOutOfBounds := by
  refine ⟨fun s p v h => ?_, fun s p v h => ⟨s.memRead_eq h, s.memWrite_eq v h⟩, fun s v => ⟨s.readTop_eq, _, s.writeTop_eq v⟩⟩
  rw [← outOfBounds_addr]
  exact ⟨s.memRead_error h, s.memWrite_error v h⟩

/-! ### What an instruction stores (R36) -/

/-- No effect of an instruction changes a byte but the one at the address it stores to. -/
theorem ExecEffect.memKeptBut {i : Instr} {s t : State} (ht : ExecEffect s i t) : MemKeptBut (storesAt i s) s t := by
  intro x hx
  cases ht with
  | badIndex | zeroDivisor | returnOutside => rfl
  | push v =>
    have hne : x ≠ s.decSp.sp := by simpa only [storesAt, List.mem_singleton] using hx
    rw [State.pcControl_readByte, State.writeByte_readByte, if_neg hne, State.decSp_readByte]
  | call v target =>
    have hne : x ≠ s.decSp.sp := by simpa only [storesAt, List.mem_singleton] using hx
    rw [State.setPc_readByte, State.writeByte_readByte, if_neg hne, State.decSp_readByte]
  | _ => simp

/-- Settles O33: of the effects of an instruction only those of PUSH and CALL write a byte. -/
theorem onlyPushAndCallStore : Obligations.OnlyPushAndCallStore := fun _ _ _ e => (exec_next_effect e).memKeptBut

end Sys2Proof.Machine
end

section
/-! PROOFS. The memory port (20_memory.md R36, R42): a step from another memory that holds the bytes the step reads is the same step,
with its writes done to the other memory. With the step's own memory for the other, its writes are the whole change of memory. -/

namespace Sys2Proof.Machine

open Sys2Proof.Laws

/-- The state with another memory. -/
def State.setMem (s : State) (m : Memory) : State := { s with mem := m }

/-! ### The data accesses of an instruction -/

theorem dataAccesses_push {a : Byte} (s : State) (ha : a.toNat < 8) :
    dataAccesses (.push a) s = [.write s.decSp.sp (s.decSp.reg ⟨a.toNat, ha⟩)] := dif_pos ha

theorem dataAccesses_pop {a : Byte} (s : State) (ha : a.toNat < 8) : dataAccesses (.pop a) s = [s.readAccess s.sp] := if_pos ha

theorem dataAccesses_call {a : Byte} (s : State) (ha : a.toNat < 8) (hp : s.pc.toNat + 2 < 256) :
    dataAccesses (.call a) s = [.write s.decSp.sp (BitVec.ofNat 8 (s.pc.toNat + 2))] := if_pos ⟨ha, hp⟩

theorem dataAccesses_call_fault (a : Byte) (s : State) (hp : 256 ≤ s.pc.toNat + 2) : dataAccesses (.call a) s = [] :=
  if_neg fun h => by omega

/-- An instruction with a register operand out of range raises its fault before any access (00_scope.md R13). -/
theorem dataAccesses_badIndex {i : Instr} (s : State) (hi : ¬ i.RegsInRange) : dataAccesses i s = [] := by
  cases i
  case push => exact dif_neg fun ha => hi (by simpa [Instr.RegsInRange, Instr.regOperands] using ha)
  case pop => exact if_neg fun ha => hi (by simpa [Instr.RegsInRange, Instr.regOperands] using ha)
  case call => exact if_neg fun ha => hi (by simpa [Instr.RegsInRange, Instr.regOperands] using ha.1)
  case ret => exact absurd (by simp [Instr.RegsInRange, Instr.regOperands]) hi
  all_goals rfl

/-- A data read returns the byte memory holds at its address. -/
theorem read_mem_dataAccesses {i : Instr} {s : State} {x v : Byte} (h : Access.read x v ∈ dataAccesses i s) :
    v = s.readByte x := by
  cases i <;> simp only [dataAccesses, List.not_mem_nil, List.mem_singleton] at h
  case push | pop | call => split at h <;> simp_all [State.readAccess]
  case ret => exact State.mem_readAccess h

/-- An instruction run on another memory that holds the bytes it reads: the same next state, with the same writes done to it. -/
theorem exec_setMem (i : Instr) (s : State) (m : Memory)
    (h : ∀ x v, Access.read x v ∈ dataAccesses i s → m.read x.toNat = v) :
    ∃ t, exec i s = .next t ∧ exec i (s.setMem m) = .next (t.setMem (m.replay (dataAccesses i s))) := by
  by_cases hreg : i.RegsInRange
  swap
  · obtain ⟨r, hr⟩ := (regsInRange_or_firstBad i).resolve_left hreg
    rw [dataAccesses_badIndex s hreg]
    exact ⟨_, exec_firstBadOperand s hr, exec_firstBadOperand _ hr⟩
  cases i <;> simp only [Instr.RegsInRange, Instr.regOperands, List.forall_mem_cons, List.not_mem_nil, false_imp_iff,
    implies_true, and_true] at hreg
  case ldi a imm => exact ⟨_, exec_ldi imm s hreg, exec_ldi imm _ hreg⟩
  case prn a => exact ⟨_, exec_prn s hreg, exec_prn _ hreg⟩
  case hlt => exact ⟨_, exec_hlt s, exec_hlt _⟩
  case mul a b => exact ⟨_, exec_mul s hreg.1 hreg.2, exec_mul _ hreg.1 hreg.2⟩
  case add a b => exact ⟨_, exec_add s hreg.1 hreg.2, exec_add _ hreg.1 hreg.2⟩
  case sub a b => exact ⟨_, exec_sub s hreg.1 hreg.2, exec_sub _ hreg.1 hreg.2⟩
  case div a b =>
    by_cases h0 : s.reg ⟨b.toNat, hreg.2⟩ = 0
    · exact ⟨_, exec_div_zero s hreg.1 hreg.2 h0, exec_div_zero _ hreg.1 hreg.2 h0⟩
    · exact ⟨_, exec_div s hreg.1 hreg.2 h0, exec_div _ hreg.1 hreg.2 h0⟩
  case cmp a b => exact ⟨_, exec_cmp s hreg.1 hreg.2, exec_cmp _ hreg.1 hreg.2⟩
  case push a =>
    rw [dataAccesses_push s hreg]
    exact ⟨_, exec_push s hreg, exec_push _ hreg⟩
  case pop a =>
    have top : (s.setMem m).readByte s.sp = s.readByte s.sp :=
      h _ _ (by rw [dataAccesses_pop s hreg]; exact List.mem_singleton_self _)
    rw [dataAccesses_pop s hreg]
    exact ⟨_, exec_pop s hreg, top ▸ exec_pop _ hreg⟩
  case call a =>
    rcases Nat.lt_or_ge (s.pc.toNat + 2) 256 with hp | hp
    · rw [dataAccesses_call s hreg hp]
      exact ⟨_, exec_call s hreg hp, exec_call _ hreg hp⟩
    · rw [dataAccesses_call_fault a s hp]
      exact ⟨_, exec_call_fault s hreg hp, exec_call_fault _ hreg hp⟩
  case ret =>
    have top : (s.setMem m).readByte s.sp = s.readByte s.sp := h _ _ (List.mem_singleton_self _)
    exact ⟨_, exec_ret s, top ▸ exec_ret _⟩
  case jmp a => exact ⟨_, exec_jmp s hreg, exec_jmp _ hreg⟩
  case jeq a => exact ⟨_, exec_jeq s hreg, exec_jeq _ hreg⟩
  case jne a => exact ⟨_, exec_jne s hreg, exec_jne _ hreg⟩

/-! ### The reads of a fetch -/

theorem pc_mem_fetchAddresses (cfg : Config) {s : State} (hp : s.pc.toNat < 256) : s.pc.toNat ∈ fetchAddresses cfg s := by
  simp [fetchAddresses, Config.memSize, hp]

/-- A fetch reads the operand bytes of a legal opcode, as far as they stand in memory. -/
theorem operand_mem_fetchAddresses {cfg : Config} {s : State} {hd : Handler} {k : Nat}
    (ht : opcodeTable cfg (s.mem.read s.pc.toNat) = some hd)
    (hk : k ≤ (operandCount (s.mem.read s.pc.toNat)).toNat) (hp : s.pc.toNat + k < 256) :
    s.pc.toNat + k ∈ fetchAddresses cfg s := by
  simpa [fetchAddresses, Config.memSize, ht, hp] using Nat.lt_succ_of_le hk

theorem fetchAddresses_lt {cfg : Config} {s : State} {a : Nat} (h : a ∈ fetchAddresses cfg s) : a < 256 := by
  simpa [Config.memSize] using (List.mem_filter.mp h).2

/-- A checked read from another memory answers the same where the two memories hold the same byte, and anywhere past memory. -/
theorem State.memRead_setMem {s : State} {m : Memory} {p : Addr} (h : p.toNat < 256 → m.read p.toNat = s.mem.read p.toNat) :
    (s.setMem m).memRead p = s.memRead p := by
  rcases Nat.lt_or_ge p.toNat 256 with hp | hp
  · rw [State.memRead_eq s hp, ← h hp]; exact State.memRead_eq _ hp
  · rw [State.memRead_error s hp]; exact State.memRead_error _ hp

/-- The operand reads from another memory, where each read it makes answers the same. -/
theorem fetchOperands_setMem {n : BitVec 2} {s : State} {m : Memory}
    (hA : 1 ≤ n.toNat → (s.setMem m).memRead (s.pc + 1) = s.memRead (s.pc + 1))
    (hB : 2 ≤ n.toNat → (s.setMem m).memRead (s.pc + 2) = s.memRead (s.pc + 2)) :
    fetchOperands n (s.setMem m) = ((fetchOperands n s).1.setMem m, (fetchOperands n s).2) := by
  by_cases h0 : n.toNat = 0
  · simp only [fetchOperands, h0, if_true]
  have hA : (s.setMem m).memRead ((s.setMem m).pc + 1) = s.memRead (s.pc + 1) := hA (by omega)
  rcases ha : s.memRead (s.pc + 1) with f | a
  · simp only [fetchOperands, h0, if_false, hA, ha]
  by_cases h1 : n.toNat = 1
  · simp only [fetchOperands, h1, if_true, hA, ha]; rfl
  have hB : ((s.setMem m).latchA a).memRead (((s.setMem m).latchA a).pc + 2) = (s.latchA a).memRead ((s.latchA a).pc + 2) :=
    hB (by omega)
  simp only [fetchOperands, h0, h1, if_false, hA, ha, hB]
  rcases (s.latchA a).memRead ((s.latchA a).pc + 2) with f | b <;> rfl

/-- The read of the opcode (`k = 0`) or of an operand byte, from another memory that holds the bytes the fetch reads. -/
theorem memRead_past_setMem {cfg : Config} {s : State} {m : Memory} (h : ∀ a ∈ fetchAddresses cfg s, m.read a = s.mem.read a)
    {hd : Handler} (ht : opcodeTable cfg (s.mem.read s.pc.toNat) = some hd) (hp : s.pc.toNat < 256) {k : Nat} (hk3 : k < 3)
    (hk : k ≤ (operandCount (s.mem.read s.pc.toNat)).toNat) :
    (s.setMem m).memRead (s.pc + BitVec.ofNat 9 k) = s.memRead (s.pc + BitVec.ofNat 9 k) := by
  have hsum : (s.pc + BitVec.ofNat 9 k).toNat = s.pc.toNat + k := by rw [BitVec.toNat_add, BitVec.toNat_ofNat]; omega
  refine State.memRead_setMem fun hpk => ?_
  rw [hsum] at hpk ⊢
  exact h _ (operand_mem_fetchAddresses ht hk hpk)

/-- A fetch from another memory that holds the bytes it reads: the same latches and the same answer. -/
theorem fetch_setMem {cfg : Config} {s : State} {m : Memory} (h : ∀ a ∈ fetchAddresses cfg s, m.read a = s.mem.read a) :
    fetch cfg (s.setMem m) = ((fetch cfg s).1.setMem m, (fetch cfg s).2) := by
  rcases Nat.lt_or_ge s.pc.toNat 256 with hp | hp
  swap
  · rw [fetch_pcOutside cfg hp]; exact fetch_pcOutside cfg (s := s.setMem m) hp
  have hir : (s.setMem m).memRead (s.setMem m).pc = .ok (s.mem.read s.pc.toNat) :=
    (State.memRead_setMem fun _ => h _ (pc_mem_fetchAddresses cfg hp)).trans (s.memRead_eq hp)
  simp only [fetch, hir, s.memRead_eq hp]
  rcases ht : (decodeOpcode cfg (s.mem.read s.pc.toNat)).handler with _ | hd
  · rfl
  have operand := fun k => memRead_past_setMem h ht hp (k := k)
  set ir := s.mem.read s.pc.toNat
  set d := decodeOpcode cfg ir
  have hops : fetchOperands d.n ((s.setMem m).latchOpcode ir d) =
      ((fetchOperands d.n (s.latchOpcode ir d)).1.setMem m, (fetchOperands d.n (s.latchOpcode ir d)).2) :=
    fetchOperands_setMem (s := s.latchOpcode ir d) (operand 1 (by decide)) (operand 2 (by decide))
  rw [hops]
  rcases fetchOperands d.n (s.latchOpcode ir d) with ⟨u, f | _⟩ <;> rfl

/-! ### The accesses of a step -/

theorem accesses_halted (cfg : Config) {s : State} (h : s.halted = true) : accesses cfg s = [] := by simp [accesses, h]

theorem accesses_of_fetch_error {cfg : Config} {s u : State} {f : FaultRecord} (h : s.halted = false)
    (hf : fetch cfg s = (u, .error f)) :
    accesses cfg s = (fetchAddresses cfg s).map fun a => s.readAccess (BitVec.ofNat 8 a) := by simp [accesses, h, hf]

theorem accesses_of_fetch_ok {cfg : Config} {s u : State} {i : Instr} (h : s.halted = false)
    (hf : fetch cfg s = (u, .ok i)) :
    accesses cfg s = ((fetchAddresses cfg s).map fun a => s.readAccess (BitVec.ofNat 8 a)) ++ dataAccesses i u := by
  simp [accesses, h, hf]

/-- The fetch's reads stand on the port of a running block, whatever the fetch answers. -/
theorem fetchRead_mem_accesses {cfg : Config} {s : State} (h : s.halted = false) {a : Nat} (ha : a ∈ fetchAddresses cfg s) :
    s.readAccess (BitVec.ofNat 8 a) ∈ accesses cfg s := by
  rw [accesses, if_neg (by simp [h])]
  exact List.mem_append_left _ (List.mem_map_of_mem ha)

/-- A fetch stores nothing. -/
theorem fetch_mem (cfg : Config) (s : State) : (fetch cfg s).1.mem = s.mem := by
  have hc := fetch_cases cfg s
  generalize fetch cfg s = r at hc
  cases hc <;> rfl

/-- Every read on the memory port returns the byte memory holds at its address before the step. -/
theorem read_mem_accesses {cfg : Config} {s : State} {x v : Byte} (h : Access.read x v ∈ accesses cfg s) : v = s.readByte x := by
  have fetchRead (h : Access.read x v ∈ (fetchAddresses cfg s).map fun a => s.readAccess (BitVec.ofNat 8 a)) :
      v = s.readByte x := by
    obtain ⟨a, -, ha⟩ := List.mem_map.mp h
    exact State.mem_readAccess ha.symm
  cases hrun : s.halted with
  | true => simp [accesses_halted cfg hrun] at h
  | false =>
    rcases hf : fetch cfg s with ⟨u, f | i⟩
    · exact fetchRead (accesses_of_fetch_error hrun hf ▸ h)
    · rw [accesses_of_fetch_ok hrun hf] at h
      have hmem : u.mem = s.mem := by rw [← fetch_mem cfg s, hf]
      rcases List.mem_append.mp h with h | h
      · exact fetchRead h
      · rw [read_mem_dataAccesses h, State.readByte, hmem, State.readByte]

/-- A step from another memory that holds the bytes it reads. -/
theorem stepWith_setMem {cfg : Config} {s : State} {m : Memory}
    (h : ∀ x v, Access.read x v ∈ accesses cfg s → m.read x.toNat = v) :
    ∃ t, stepWith cfg s = .next t ∧ stepWith cfg (s.setMem m) = .next (t.setMem (m.replay (accesses cfg s))) := by
  cases hrun : s.halted with
  | true =>
    rw [accesses_halted cfg hrun]
    exact ⟨s, stepWith_halted cfg hrun, stepWith_halted cfg (s := s.setMem m) hrun⟩
  | false =>
    have hrun' : (s.setMem m).halted = false := hrun
    have hfetch := fetch_setMem (cfg := cfg) (s := s) (m := m) fun a ha => by
      have hread := h _ _ (fetchRead_mem_accesses hrun ha)
      rwa [State.readByte, BitVec.toNat_ofNat, Nat.mod_eq_of_lt (fetchAddresses_lt ha)] at hread
    rcases hf : fetch cfg s with ⟨u, f | i⟩ <;> rw [hf] at hfetch
    · rw [accesses_of_fetch_error hrun hf, Memory.replay_map_readAccess]
      exact ⟨u.takeFault f, stepWith_of_fetch_error hrun hf, stepWith_of_fetch_error hrun' hfetch⟩
    · rw [accesses_of_fetch_ok hrun hf] at h ⊢
      rw [Memory.replay_append, Memory.replay_map_readAccess]
      obtain ⟨t, e, e'⟩ := exec_setMem i u m fun x v hx => h x v (List.mem_append_right _ hx)
      exact ⟨t, (stepWith_of_fetch_ok hrun hf).trans e, (stepWith_of_fetch_ok hrun' hfetch).trans e'⟩

/-- Settles O42: the fetch and the instruction answer the same from the other memory. -/
theorem bytesNotReadDoNotMatter : Obligations.BytesNotReadDoNotMatter := fun _ _ _ h => stepWith_setMem h

/-- Settles O41: memory after a step is `stepWith_setMem` with the step's own memory for the other. -/
theorem memoryPortWritesAreTheWholeChangeOfMemory : Obligations.MemoryPortWritesAreTheWholeChangeOfMemory := by
  refine ⟨fun cfg s t e => ?_, fun _ _ _ _ h => read_mem_accesses h⟩
  obtain ⟨t', e', eOwn⟩ := stepWith_setMem (m := s.mem) fun _ _ h => (read_mem_accesses h).symm
  obtain rfl : t = t' := Host.Outcome.next.inj (e.symm.trans e')
  have hown : Host.Outcome.next t = .next (t.setMem (s.mem.replay (accesses cfg s))) := e.symm.trans eOwn
  exact congrArg State.mem (Host.Outcome.next.inj hown)

end Sys2Proof.Machine
end

section
/-! PROOFS. A byte just stored is fetched like any other (20_memory.md R44, 70_reset_and_hazards.md R103): the bytes at `pc` that decode
are the instruction a fetch answers, and a fetch sees what memory holds. -/

namespace Sys2Proof.Machine

open Sys2Proof.Laws Sys2Proof.Statement

/-! ### The bytes of an instruction (30_encoding.md R46, R48, R49) -/

theorem instr_handler (hd : Handler) (a b : Byte) : (hd.instr a b).handler = hd := by cases hd <;> rfl

/-- An instruction keeps the operand bytes its handler has, and no others. -/
theorem instr_operands (hd : Handler) (a b : Byte) : (hd.instr a b).operands = [a, b].take (operandNumber hd) := by
  cases hd <;> rfl

theorem encode_instr (hd : Handler) (a b : Byte) : encode (hd.instr a b) = hd.opcode :: [a, b].take (operandNumber hd) := by
  rw [encode, instr_handler, instr_operands]

theorem operands_length (i : Instr) : i.operands.length = operandNumber i.handler := by cases i <;> rfl

/-- An instruction is its handler with its operand bytes, whatever stands for the bytes it does not have. -/
theorem instr_of_operands {i : Instr} {a b : Byte} (ha : ∀ x, i.operands[0]? = some x → a = x)
    (hb : ∀ x, i.operands[1]? = some x → b = x) : i.handler.instr a b = i := by
  cases i <;> simp_all [Instr.operands, Instr.handler, Handler.instr]

/-- A handler the table gives stands for an instruction the parameter has. -/
theorem instr_wellFormed {cfg : Config} {ir : Byte} {hd : Handler} (ht : opcodeTable cfg ir = some hd) (a b : Byte) :
    (hd.instr a b).WellFormed cfg := by
  obtain ⟨-, hsub⟩ := opcodeTable_some ht
  cases hd
  case sub => exact hsub (.inl rfl)
  case div => exact hsub (.inr rfl)
  all_goals rfl

/-- Bytes that decode are the bytes of the instruction, which the parameter has, and the rest. -/
theorem decode_ok {cfg : Config} {bytes rest : List Byte} {i : Instr} (e : decode cfg bytes = .ok (i, rest)) :
    i.WellFormed cfg ∧ bytes = encode i ++ rest := by
  rcases bytes with _ | ⟨ir, more⟩
  · cases e
  rcases ht : opcodeTable cfg ir with _ | hd
  · simp [decode, ht] at e
  obtain ⟨hir, -⟩ := opcodeTable_some ht
  have hn : (operandCount ir).toNat = operandNumber hd := hir ▸ operandCount_opcode hd
  simp only [decode, ht, hn] at e
  split at e
  case h_4 | h_5 => cases e
  all_goals
    rename_i hcount
    cases e
    exact ⟨instr_wellFormed ht _ _, by simp [encode_instr, hir, hcount]⟩

/-! ### The fetch of bytes that decode -/

theorem bytesFromPc_getElem? {s : State} {k : Nat} {b : Byte} (h : (bytesFromPc s)[k]? = some b) :
    s.pc.toNat + k < 256 ∧ s.mem.read (s.pc.toNat + k) = b := by
  obtain ⟨a, ha, hb⟩ := Option.map_eq_some_iff.mp (List.getElem?_map .. ▸ h)
  obtain ⟨hk, rfl⟩ := List.getElem?_eq_some_iff.mp ha
  rw [List.getElem_range', Nat.one_mul] at hb
  rw [List.length_range'] at hk
  exact ⟨by omega, hb⟩

/-- When the bytes at `pc` decode, a fetch answers the instruction they decode to (30_encoding.md R54, R57). -/
theorem fetch_of_decode {cfg : Config} {s : State} {i : Instr} {rest : List Byte}
    (e : decode cfg (bytesFromPc s) = .ok (i, rest)) : fetch cfg s = ({ s with latch := latchesOf i s.latch }, .ok i) := by
  obtain ⟨hwf, hbytes⟩ := decode_ok e
  have byte (k : Nat) (x : Byte) (hx : (encode i)[k]? = some x) :
      s.pc.toNat + k < 256 ∧ s.mem.read (s.pc.toNat + k) = x := by
    apply bytesFromPc_getElem?
    rw [hbytes, List.getElem?_append_left (List.getElem?_eq_some_iff.mp hx).1, hx]
  have ht : opcodeTable cfg (s.mem.read s.pc.toNat) = some i.handler := by
    rw [← Nat.add_zero s.pc.toNat, (byte 0 i.handler.opcode rfl).2, opcodeTable_opcode hwf]
  have hlast : s.pc.toNat + operandNumber i.handler < 256 := by
    rw [← operands_length]
    exact (byte i.operands.length _ (List.getElem?_eq_getElem (by simp [encode]))).1
  have hi : i.handler.instr (s.mem.read (s.pc.toNat + 1)) (s.mem.read (s.pc.toNat + 2)) = i :=
    instr_of_operands (fun x hx => (byte 1 x hx).2) (fun x hx => (byte 2 x hx).2)
  rw [fetch_fetched ht hlast, hi]

/-- A step of the running block runs the instruction the bytes at `pc` decode to, with its latches set (30_encoding.md R57). -/
theorem stepWith_of_decode {cfg : Config} {s : State} {i : Instr} {rest : List Byte} (h : s.Running)
    (e : decode cfg (bytesFromPc s) = .ok (i, rest)) : stepWith cfg s = exec i (s.setLatch (latchesOf i s.latch)) :=
  stepWith_of_fetch_ok h (fetch_of_decode e)

/-! ### What a fetch sees (20_memory.md R44) -/

/-- The operands of a fetched instruction are the bytes after its opcode. -/
theorem FetchCases.operand {cfg : Config} {s u : State} {i : Instr} (hf : FetchCases cfg s (u, .ok i)) {k : Nat}
    (hk : k < i.operands.length) : i.operands[k]? = some (s.mem.read (s.pc.toNat + 1 + k)) := by
  cases hf with
  | fetched hd _ _ _ hi =>
    subst hi
    rw [instr_operands, List.length_take, lt_min_iff] at hk
    rw [instr_operands, List.getElem?_take_of_lt hk.1]
    obtain rfl | rfl : k = 0 ∨ k = 1 := by have h2 : k < 2 := hk.2; omega
    · rfl
    · rfl

/-- A fetch sees, as opcode or as operand, the byte memory holds at an address. -/
theorem fetchSees_of_readByte (cfg : Config) {s : State} {x v : Byte} (h : s.readByte x = v) : FetchSees cfg s x v := by
  refine ⟨fun hx => ?_, fun i hi k hk hx => ?_⟩
  · rw [fetch_latch_ir cfg (hx ▸ x.isLt), hx, ← h, State.readByte]
  · have hf : FetchCases cfg s ((fetch cfg s).1, .ok i) := hi ▸ fetch_cases cfg s
    rw [hf.operand hk, hx, ← h, State.readByte]

/-- The register a PUSH stores, as read after the decrement of SP: the decremented SP for R7 (42_stack.md R78). -/
theorem State.decSp_reg_byte (s : State) {a : Byte} (ha : a.toNat < 8) :
    s.decSp.reg ⟨a.toNat, ha⟩ = if a.toNat = 7 then s.decSp.sp else s.reg ⟨a.toNat, ha⟩ := by
  simp only [State.decSp_reg, State.decSp_sp, Fin.ext_iff]; rfl

/-- Settles O40: the step runs the PUSH or the CALL, which stores the byte, and the next fetch sees what memory holds. -/
theorem storedByteIsFetchedByTheNextStep : Obligations.StoredByteIsFetchedByTheNextStep := by
  refine ⟨fun cfg s a ha rest hrun e => ?_, fun cfg s a rest ha hp hrun e => ?_⟩
  · refine ⟨_, (stepWith_of_decode hrun e).trans (exec_push _ ha), (State.pcControl_halted _ _).trans hrun,
      fetchSees_of_readByte cfg ?_⟩
    rw [State.pcControl_readByte, ← State.decSp_reg_byte s ha]
    exact State.writeByte_readByte_same _ _ _
  · have hret : (s.setLatch (latchesOf (.call a) s.latch)).pc.toNat + 2 < 256 := Nat.add_lt_add_right hp 2
    refine ⟨_, (stepWith_of_decode hrun e).trans (exec_call _ ha hret), (State.pcControl_halted _ _).trans hrun,
      fetchSees_of_readByte cfg ?_⟩
    rw [State.pcControl_readByte, State.setPc_readByte]
    exact State.writeByte_readByte_same _ _ _

end Sys2Proof.Machine
end

section
/-! PROOFS. The decoder and the encoder of 30_encoding.md: the framing of an instruction's bytes (R46, R48, R52), the fields of the
opcode byte and the decoder's outputs (R47, R53), and the opcode table with the bytes that are not in it (R49, R51). -/

namespace Sys2Proof.Machine

open Sys2Proof.Laws Sys2Proof.Statement

/-! ### Encoding and decoding (R46, R48) -/

theorem decode_encode {cfg : Config} {i : Instr} (hi : i.WellFormed cfg) (rest : List Byte) :
    decode cfg (encode i ++ rest) = .ok (i, rest) := by
  have ht := opcodeTable_opcode hi
  have hn := operandCount_opcode i.handler
  simp only [encode, List.cons_append, decode, ht, hn]
  cases i <;> rfl

/-- Settles O5: the opcode of an instruction is looked up to its handler, whose operand number is the `n` of the opcode. -/
theorem decodeOfEncodeIsTheInstruction : Obligations.DecodeOfEncodeIsTheInstruction := fun _ _ rest hi => decode_encode hi rest

/-- Settles O6: `decode_ok`. -/
theorem encodeOfDecodeIsTheBytes : Obligations.EncodeOfDecodeIsTheBytes := fun _ _ _ _ e => decode_ok e

/-- Settles O2: each word is the encoding of its instruction, which the default parameter has. -/
theorem wordsOfTheSpecDecode : Obligations.WordsOfTheSpecDecode := by
  intro w hw
  have hword : w.1 = encode w.2 ∧ w.2.WellFormed Config.default := by revert w; decide
  obtain ⟨hbytes, hi⟩ := hword
  rw [hbytes, ← List.append_nil (encode w.2), decode_encode hi]

/-! ### The fields of the opcode byte (R47) -/

theorem operandCount_toNat (ir : Byte) : (operandCount ir).toNat = ir.toNat / 64 := by
  rw [operandCount, BitVec.extractLsb'_toNat, Nat.shiftRight_eq_div_pow, Nat.mod_eq_of_lt (by have := ir.isLt; omega)]

theorem setsPc_iff (ir : Byte) : setsPc ir = true ↔ ir.toNat / 16 % 2 = 1 := by
  rw [setsPc, BitVec.getLsbD, Nat.testBit_eq_decide_div_mod_eq, decide_eq_true_iff]

theorem aluSelect_toNat (ir : Byte) : (aluSelect ir).toNat = ir.toNat % 16 := by
  rw [aluSelect, BitVec.extractLsb'_toNat, Nat.shiftRight_zero]

/-- No handler has more than two operand bytes (R46). -/
theorem operandNumber_le_two (hd : Handler) : operandNumber hd ≤ 2 := by cases hd <;> decide

/-- A byte with a handler tells the handler's operand number in its two high bits. -/
theorem div_64_of_opcodeTable {cfg : Config} {ir : Byte} {hd : Handler} (ht : opcodeTable cfg ir = some hd) :
    ir.toNat / 64 = operandNumber hd := by
  obtain ⟨rfl, -⟩ := opcodeTable_some ht
  rw [← operandCount_toNat, operandCount_opcode]

/-- Settles O7: the bytes that decode are the opcode, its operands and the rest. -/
theorem firstByteTellsTheLength : Obligations.FirstByteTellsTheLength := by
  intro cfg ir more rest i e
  obtain ⟨hi, hbytes⟩ := decode_ok e
  obtain ⟨rfl, rfl⟩ : ir = i.handler.opcode ∧ more = i.operands ++ rest := List.cons.inj hbytes
  have hn : i.handler.opcode.toNat / 64 = i.operands.length := by
    rw [div_64_of_opcodeTable (opcodeTable_opcode hi), operands_length]
  refine ⟨?_, ?_, ?_⟩
  · rw [List.length_append, hn, Nat.add_comm]
  · rw [encode, List.length_cons, hn]
  · rw [hn, operands_length]
    exact operandNumber_le_two _

/-! ### The decoder's outputs (R53) -/

theorem isAlu_iff (hd : Handler) : hd.isAlu = true ↔ hd ∈ [Handler.add, .sub, .mul, .div, .cmp] := by cases hd <;> decide

/-- The decoder drives the ALU's select from the opcode's low four bits for an ALU handler, and not at all for another. -/
theorem decodeOpcode_aluOp {cfg : Config} {ir : Byte} {hd : Handler} (ht : opcodeTable cfg ir = some hd) :
    (decodeOpcode cfg ir).aluOp = if hd.isAlu then some (aluSelect ir) else none := by
  simp only [decodeOpcode, ht, Option.map_some, Option.getD_some]

/-- Settles O4: each output is one field of the byte, or the table's. -/
theorem decodeIsAFunctionOfTheByte : Obligations.DecodeIsAFunctionOfTheByte := by
  refine fun cfg ir => ⟨operandCount_toNat ir, setsPc_iff ir, rfl, fun hlegal => ?_, fun hd ht => ⟨fun halu => ?_, fun halu => ?_⟩⟩
  · obtain ⟨hd, ht⟩ := Option.ne_none_iff_exists'.mp hlegal
    exact (operandCount_toNat ir).trans (div_64_of_opcodeTable ht) ▸ operandNumber_le_two hd
  · exact ⟨_, (decodeOpcode_aluOp ht).trans (if_pos ((isAlu_iff hd).mpr halu)), aluSelect_toNat ir⟩
  · exact (decodeOpcode_aluOp ht).trans (if_neg (halu ∘ (isAlu_iff hd).mp))

/-! ### The opcode table and the bytes without a handler (R49, R51) -/

/-- Every handler's opcode is looked up to it, but that SUB and DIV need ENABLE_SUB_DIV (00_scope.md R8). -/
theorem opcodeTable_handler_opcode (cfg : Config) (hd : Handler) :
    opcodeTable cfg hd.opcode = if decide (hd = .sub ∨ hd = .div) && !cfg.enableSubDiv then none else some hd := by
  obtain ⟨b⟩ := cfg
  cases b <;> cases hd <;> rfl

theorem rows_handler : ∀ r ∈ rows, r.byte = r.handler.opcode ∧ r.n = operandNumber r.handler ∧ r.c = setsPc r.byte ∧
    r.optional = decide (r.handler = .sub ∨ r.handler = .div) := by decide

theorem exists_row (hd : Handler) : ∃ r ∈ rows, r.handler = hd := by cases hd <;> decide

/-- Settles O1: the byte of a row is its handler's opcode. -/
theorem opcodeTableHasTheRowsOfTheSpec : Obligations.OpcodeTableHasTheRowsOfTheSpec := by
  intro cfg r hr
  obtain ⟨hbyte, hn, hc, hopt⟩ := rows_handler r hr
  refine ⟨?_, ?_, hc.symm⟩
  · rw [hbyte, hopt, opcodeTable_handler_opcode]
  · rw [hbyte, hn, operandCount_opcode]

/-- A row is looked up to its handler exactly when the parameter has it. -/
theorem opcodeTable_row {cfg : Config} {r : Row} (hr : r ∈ rows) :
    opcodeTable cfg r.byte = some r.handler ↔ (!r.optional || cfg.enableSubDiv) = true := by
  rw [(opcodeTableHasTheRowsOfTheSpec cfg r hr).1]
  cases r.optional <;> cases cfg.enableSubDiv <;> simp

theorem mem_handledBytes_iff (cfg : Config) (ir : Byte) : ir ∈ handledBytes cfg ↔ ∃ hd, opcodeTable cfg ir = some hd := by
  simp only [handledBytes, List.mem_map, List.mem_filter]
  constructor
  · rintro ⟨r, ⟨hr, hon⟩, rfl⟩
    exact ⟨_, (opcodeTable_row hr).mpr hon⟩
  · rintro ⟨hd, ht⟩
    obtain ⟨r, hr, rfl⟩ := exists_row hd
    obtain rfl : r.byte = ir := (rows_handler r hr).1.trans (opcodeTable_some ht).1.symm
    exact ⟨r, ⟨hr, (opcodeTable_row hr).mp ht⟩, rfl⟩

theorem opcodeTable_eq_none_iff (cfg : Config) (ir : Byte) : opcodeTable cfg ir = none ↔ ir ∉ handledBytes cfg := by
  rw [mem_handledBytes_iff, Option.eq_none_iff_forall_ne_some, not_exists]

/-- Of the 256 bytes all but the fifteen of the table have no handler, or all but thirteen without SUB and DIV. -/
theorem count_withoutHandler (cfg : Config) :
    ((List.range 256).filter (fun k => opcodeTable cfg (BitVec.ofNat 8 k) = none)).length =
      if cfg.enableSubDiv then 241 else 243 := by
  obtain ⟨b⟩ := cfg
  cases b <;> decide +kernel

/-- A byte with three operands by its `n` has no handler. -/
theorem opcodeTable_of_192_le (cfg : Config) {ir : Byte} (h : 192 ≤ ir.toNat) : opcodeTable cfg ir = none := by
  rcases ht : opcodeTable cfg ir with _ | hd
  · rfl
  have hn : ir.toNat / 64 ≤ 2 := div_64_of_opcodeTable ht ▸ operandNumber_le_two hd
  omega

/-- Settles O3: a fetch of a byte without a handler raises the fault, which changes the latches and the status alone. -/
theorem bytesWithoutHandlerRaiseIllegalInstruction : Obligations.BytesWithoutHandlerRaiseIllegalInstruction := by
  refine fun cfg => ⟨opcodeTable_eq_none_iff cfg, count_withoutHandler cfg, fun ir => opcodeTable_of_192_le cfg,
    fun s hrun hp ht => ?_⟩
  obtain ⟨l, hf⟩ := fetch_illegal hp ht
  exact ⟨_, stepWith_of_fetch_error hrun hf, rfl, rfl, rfl, ⟨rfl, rfl, rfl, rfl, rfl⟩⟩

end Sys2Proof.Machine
end

section
/-! PROOFS. The cycle of 30_encoding.md: the pc update (R56) and the step that runs the bytes at `pc` (R54, R57), wherever they came
from; for a word the host places there (log 6), what memory holds after the placing. -/

namespace Sys2Proof.Machine

open Sys2Proof.Laws Sys2Proof.Statement

/-! ### The step of decoded bytes (R57) -/

/-- Settles O43: `stepWith_of_decode`. -/
theorem stepRunsTheDecodedInstruction : Obligations.StepRunsTheDecodedInstruction :=
  ⟨fun _ _ _ _ hrun e => stepWith_of_decode hrun e, fun _ => rfl⟩

/-! ### The pc update (R56) -/

theorem takeFault_faultCause_ne_zero (f : FaultRecord) (s : State) : (s.takeFault f).faultCause ≠ 0 := by
  rw [State.takeFault_faultCause]
  cases f.cause <;> decide

/-- An opcode with `c = 0` advances `pc` by the number of its bytes. -/
theorem pcStep_of_setsPc_false {hd : Handler} (hc : setsPc hd.opcode = false) :
    pcStep hd = zext9 (operandCount hd.opcode) + 1 := by
  revert hc
  cases hd <;> decide

theorem setsPc_ne_false_of_pcStep_zero {hd : Handler} (h0 : pcStep hd = 0) : setsPc hd.opcode ≠ false := by
  revert h0
  cases hd <;> decide

/-- A raised fault keeps `pc`; an instruction that raises none keeps FAULT_CAUSE and, with `c = 0`, advances `pc`. -/
theorem ExecEffect.pc_cases {i : Instr} {s t : State} (ht : ExecEffect s i t) :
    (t.faultCause ≠ 0 ∧ t.pc = s.pc) ∨
    (t.faultCause = s.faultCause ∧ (setsPc i.handler.opcode = false → t.pc = s.pc + pcStep i.handler)) := by
  cases ht with
  | badIndex => exact .inl ⟨takeFault_faultCause_ne_zero _ s, rfl⟩
  | zeroDivisor => exact .inl ⟨takeFault_faultCause_ne_zero _ s, rfl⟩
  | returnOutside => exact .inl ⟨takeFault_faultCause_ne_zero _ s, rfl⟩
  | setReg => exact .inr ⟨State.pcControl_faultCause _ _, fun _ => State.pcControl_opcode_pc _ _⟩
  | compare => exact .inr ⟨State.pcControl_faultCause _ _, fun _ => State.pcControl_opcode_pc _ .cmp⟩
  | print => exact .inr ⟨State.pcControl_faultCause _ _, fun _ => State.pcControl_opcode_pc _ .prn⟩
  | halt => exact .inr ⟨State.pcControl_faultCause _ _, fun _ => State.pcControl_opcode_pc _ .hlt⟩
  | push => exact .inr ⟨State.pcControl_faultCause _ _, fun _ => State.pcControl_opcode_pc _ .push⟩
  | pop => exact .inr ⟨State.pcControl_faultCause _ _, fun _ => State.pcControl_opcode_pc _ .pop⟩
  | call => exact .inr ⟨rfl, fun hc => absurd hc (setsPc_ne_false_of_pcStep_zero (hd := .call) rfl)⟩
  | ret => exact .inr ⟨rfl, fun hc => absurd hc (setsPc_ne_false_of_pcStep_zero (hd := .ret) rfl)⟩
  | jump h0 => exact .inr ⟨rfl, fun hc => absurd hc (setsPc_ne_false_of_pcStep_zero h0)⟩
  | noJump h0 => exact .inr ⟨rfl, fun hc => absurd hc (setsPc_ne_false_of_pcStep_zero h0)⟩

/-- From an address of memory the advance of `pc` does not wrap. -/
theorem toNat_add_zext9_add_one {p : Addr} (hp : p.toNat ≤ 255) (n : BitVec 2) :
    (p + zext9 n + 1).toNat = p.toNat + n.toNat + 1 := by
  have hn := n.isLt
  have hz : (zext9 n).toNat = n.toNat := by rw [zext9, BitVec.toNat_setWidth]; omega
  have h1 : (1 : Addr).toNat = 1 := rfl
  rw [BitVec.toNat_add, BitVec.toNat_add, hz, h1]
  omega

/-- Settles O35: `ExecEffect.pc_cases`, and no handler has more than two operand bytes. -/
theorem pcAdvancesByNPlusOneUnlessTheHandlerSetsIt : Obligations.PcAdvancesByNPlusOneUnlessTheHandlerSetsIt := by
  refine ⟨fun s ir hc => if_pos hc, fun i s t hs e => ?_⟩
  rcases (exec_next_effect e).pc_cases with ⟨hfault, hkept⟩ | ⟨hcause, hadvance⟩
  · exact ⟨fun h0 => absurd h0 hfault, fun _ => hkept⟩
  refine ⟨fun _ hc => ?_, fun h0 => absurd (hcause.trans hs) h0⟩
  have hpc : t.pc = s.pc + zext9 (operandCount i.handler.opcode) + 1 := by
    rw [hadvance hc, pcStep_of_setsPc_false hc, BitVec.add_assoc]
  refine ⟨hpc, fun hp => ?_⟩
  have hn : (operandCount i.handler.opcode).toNat ≤ 2 := operandCount_opcode _ ▸ operandNumber_le_two _
  have hnat := toNat_add_zext9_add_one hp (operandCount i.handler.opcode)
  rw [hpc]
  omega

/-! ### A word placed at `pc` (log 6) -/

/-- Placing bytes changes memory alone. -/
theorem State.placeBytes_eq_setMem (s : State) (a : Nat) (bytes : List Byte) :
    s.placeBytes a bytes = s.setMem (s.placeBytes a bytes).mem := by
  induction bytes generalizing s a with
  | nil => rfl
  | cons v vs ih =>
    simp only [State.placeBytes]
    split
    · exact ih _ _
    · exact ih _ _

theorem State.placeBytes_read_below (s : State) {a x : Nat} (bytes : List Byte) (hx : x < a) :
    (s.placeBytes a bytes).mem.read x = s.mem.read x := by
  induction bytes generalizing s a with
  | nil => rfl
  | cons v vs ih =>
    simp only [State.placeBytes]
    rw [ih _ (Nat.lt_succ_of_lt hx)]
    split
    · next ha =>
      have hne : x ≠ (BitVec.ofNat 8 a).toNat := by rw [BitVec.toNat_ofNat, Nat.mod_eq_of_lt ha]; omega
      rw [State.writeByte_mem, Memory.read_write, if_neg hne]
    · rfl

/-- A placed byte whose address is in memory is read back: the bytes placed after it go to higher addresses. -/
theorem State.placeBytes_read (s : State) {a k : Nat} {bytes : List Byte} {v : Byte} (hv : bytes[k]? = some v)
    (hk : a + k < 256) :
    (s.placeBytes a bytes).mem.read (a + k) = v := by
  induction bytes generalizing s a k with
  | nil => cases hv
  | cons w ws ih =>
    have ha : a < Config.memSize := Nat.lt_of_le_of_lt (Nat.le_add_right a k) hk
    simp only [State.placeBytes, if_pos ha]
    cases k with
    | zero =>
      have hw : w = v := Option.some.inj hv
      have heq : a = (BitVec.ofNat 8 a).toNat := by rw [BitVec.toNat_ofNat, Nat.mod_eq_of_lt ha]
      rw [Nat.add_zero a, State.placeBytes_read_below _ ws (lt_add_one a), State.writeByte_mem, Memory.read_write,
        if_pos heq, hw]
    | succ k =>
      have hshift : a + (k + 1) = a + 1 + k := by omega
      rw [hshift]
      exact ih _ hv (by omega)

theorem State.withFetchWord_pc (s : State) (nbits w : Nat) : (s.withFetchWord nbits w).pc = s.pc := by
  rw [State.withFetchWord, State.placeBytes_eq_setMem]; rfl

theorem State.withFetchWord_latch (s : State) (nbits w : Nat) : (s.withFetchWord nbits w).latch = s.latch := by
  rw [State.withFetchWord, State.placeBytes_eq_setMem]; rfl

/-- A table word that decodes starts with the bytes of an instruction of the default parameter. -/
theorem tableBytes_of_decodeTableWord {nbits w : Nat} {i : Instr} (e : decodeTableWord nbits w = some i) :
    i.WellFormed Config.default ∧ encode i <+: tableBytes nbits w := by
  unfold decodeTableWord at e
  split at e
  · next j rest hdec =>
    obtain rfl : j = i := Option.some.inj e
    obtain ⟨hi, hbytes⟩ := decode_ok hdec
    exact ⟨hi, rest, hbytes.symm⟩
  · cases e

/-- After the placing, memory holds the bytes of the word's instruction from `pc` on, as far as they fit. -/
theorem State.withFetchWord_read (s : State) {nbits w : Nat} {i : Instr} (e : decodeTableWord nbits w = some i) {k : Nat}
    {v : Byte} (hv : (encode i)[k]? = some v) (hk : s.pc.toNat + k < 256) :
    (s.withFetchWord nbits w).mem.read (s.pc.toNat + k) = v := by
  obtain ⟨hlt, hget⟩ := List.getElem?_eq_some_iff.mp hv
  have hplaced := List.prefix_iff_getElem?.mp (tableBytes_of_decodeTableWord e).2 k hlt
  exact s.placeBytes_read (hplaced.trans (congrArg some hget)) hk

/-- Bytes that stand in memory from `pc` on are the first bytes from `pc`. -/
theorem bytesFromPc_of_read {s : State} {bytes : List Byte} (hfit : s.pc.toNat + bytes.length ≤ 256)
    (h : ∀ k v, bytes[k]? = some v → s.mem.read (s.pc.toNat + k) = v) : bytes <+: bytesFromPc s := by
  rw [List.prefix_iff_getElem?]
  intro k hk
  have hbyte := h k bytes[k] (List.getElem?_eq_getElem hk)
  simp only [bytesFromPc, List.getElem?_map]
  rw [List.getElem?_range' (by omega), Nat.one_mul, Option.map_some, hbyte]

/-- Settles O54: what the fetch reads from `pc` on are the bytes of the word's instruction, as far as they fit. -/
theorem stepRunsThePlacedWord : Obligations.StepRunsThePlacedWord := by
  intro s nbits w i e
  have hi := (tableBytes_of_decodeTableWord e).1
  have hpc := s.withFetchWord_pc nbits w
  refine ⟨fun hfit => ?_, fun hp hpast => ?_, fun hp => ?_⟩
  · have hlen : (encode i).length = i.operands.length + 1 := rfl
    have hbytes : encode i <+: bytesFromPc (s.withFetchWord nbits w) := by
      refine bytesFromPc_of_read (by rw [hpc]; omega) fun k v hv => ?_
      have hk := (List.getElem?_eq_some_iff.mp hv).1
      rw [hpc]
      exact s.withFetchWord_read e hv (by omega)
    obtain ⟨rest, hrest⟩ := hbytes
    have hdec : decode Config.default (bytesFromPc (s.withFetchWord nbits w)) = .ok (i, rest) := hrest ▸ decode_encode hi rest
    rw [← s.withFetchWord_latch nbits w]
    exact stepWith_of_decode rfl hdec
  · have hread : (s.withFetchWord nbits w).mem.read (s.pc.toNat + 0) = i.handler.opcode := s.withFetchWord_read e rfl hp
    have ht : opcodeTable Config.default ((s.withFetchWord nbits w).mem.read (s.withFetchWord nbits w).pc.toNat) =
        some i.handler := by
      rw [hpc, ← Nat.add_zero s.pc.toNat, hread, opcodeTable_opcode hi]
    obtain ⟨l, hf⟩ := fetch_operandOutside ht (hpc ▸ hp) (by rw [hpc, ← operands_length]; exact hpast)
    exact ⟨_, stepWith_of_fetch_error rfl hf, rfl, rfl, rfl⟩
  · refine ⟨_, stepWith_of_fetch_error rfl (fetch_pcOutside _ (hpc.symm ▸ hp)), rfl, ?_, rfl⟩
    rw [State.takeFault_faultInfo, outOfBounds_addr, hpc]

end Sys2Proof.Machine
end

section
/-! PROOFS. The assembly text of an instruction (30_encoding.md R58) reads back: the operands' digits, the pieces between commas, the
blanks around them, and the mnemonic. -/

namespace Sys2Proof.Machine

/-! ### Decimal digits -/

theorem digitValue_of_isDigit {c : Char} (hc : c.isDigit = true) : digitValue c = some (c.toNat - 48) ∧ c.toNat - 48 < 10 := by
  obtain ⟨h0, h9⟩ : '0'.val ≤ c.val ∧ c.val ≤ '9'.val := by
    simpa only [Char.isDigit, Bool.and_eq_true, decide_eq_true_eq, ge_iff_le] using hc
  have h57 : c.toNat ≤ 57 := h9
  exact ⟨if_pos ⟨h0, h9⟩, by omega⟩

theorem parseDigits_of_isDigit {w : List Char} (hw : ∀ c ∈ w, c.isDigit = true) (acc : Nat) :
    parseDigits 10 acc w = some (Nat.ofDigitChars 10 w acc) := by
  induction w generalizing acc with
  | nil => rfl
  | cons c cs ih =>
    obtain ⟨hc, hcs⟩ := List.forall_mem_cons.mp hw
    obtain ⟨hval, hlt⟩ := digitValue_of_isDigit hc
    simp only [parseDigits, hval, if_pos hlt]
    rw [ih hcs, Nat.ofDigitChars_cons, Nat.mul_comm]
    rfl

theorem isDigit_of_mem_decimal {n : Nat} : ∀ c ∈ Nat.toDigits 10 n, c.isDigit = true :=
  fun _ hc => Nat.isDigit_of_mem_toDigits (by decide) (by decide) hc

/-- Digits are read as a decimal number: none of them is the `x` of `0x`. -/
theorem parseImmediate_of_isDigit {w : List Char} (hne : w ≠ []) (hw : ∀ c ∈ w, c.isDigit = true)
    (hlt : Nat.ofDigitChars 10 w 0 < 256) : parseImmediate w = some (BitVec.ofNat 8 (Nat.ofDigitChars 10 w 0)) := by
  have hx : ('x').isDigit ≠ true := by decide
  unfold parseImmediate
  split
  · exact absurd (hw 'x' (by simp)) hx
  · simp only [parseDigits_of_isDigit hw, if_pos hlt]
  · exact absurd rfl hne

theorem parseImmediate_decimal (b : Byte) : parseImmediate (Nat.toDigits 10 b.toNat) = some b := by
  have hval : Nat.ofDigitChars 10 (Nat.toDigits 10 b.toNat) 0 = b.toNat := Nat.ofDigitChars_toDigits (by decide) (by decide)
  rw [parseImmediate_of_isDigit Nat.toDigits_ne_nil isDigit_of_mem_decimal (hval.symm ▸ b.isLt), hval, BitVec.ofNat_toNat,
    BitVec.setWidth_eq]

theorem parseRegister_index {b : Byte} (hb : b.toNat < 8) : parseRegister ('R' :: Nat.toDigits 10 b.toNat) = some b := by
  have hdigit : ∀ n < 8, parseRegister ['R', n.digitChar] = some (BitVec.ofNat 8 n) := by decide
  rw [Nat.toDigits_of_lt_base (by omega), hdigit _ hb, BitVec.ofNat_toNat, BitVec.setWidth_eq]

/-- An operand as the assembler takes it: a register index names a register. -/
def Assemblable (k : OperandKind) (b : Byte) : Prop := k = .register → b.toNat < 8

theorem parseOperand_renderOperand {k : OperandKind} {b : Byte} (h : Assemblable k b) :
    parseOperand k (renderOperand k b) = some b := by
  cases k with
  | register => exact parseRegister_index (h rfl)
  | immediate => exact parseImmediate_decimal b

/-! ### Words -/

/-- A word of the assembly text: not empty, with no blank and no comma. -/
structure IsWord (w : List Char) : Prop where
  ne_nil : w ≠ []
  blank  : ' ' ∉ w
  comma  : ',' ∉ w

theorem isWord_renderOperand (k : OperandKind) (b : Byte) : IsWord (renderOperand k b) := by
  have hblank : ' ' ∉ Nat.toDigits 10 b.toNat := fun h => absurd (isDigit_of_mem_decimal _ h) (by decide)
  have hcomma : ',' ∉ Nat.toDigits 10 b.toNat := fun h => absurd (isDigit_of_mem_decimal _ h) (by decide)
  cases k with
  | register => exact ⟨List.cons_ne_nil _ _, by simpa [renderOperand] using hblank, by simpa [renderOperand] using hcomma⟩
  | immediate => exact ⟨Nat.toDigits_ne_nil, hblank, hcomma⟩

theorem isWord_mnemonic (hd : Handler) : IsWord (mnemonic hd) := by
  constructor <;> cases hd <;> decide

theorem handlerNamed_mnemonic (hd : Handler) : handlerNamed (mnemonic hd) = some hd := by cases hd <;> rfl

/-! ### Texts without blanks around them -/

/-- A text that is not empty and neither starts nor ends with a blank. -/
structure IsTrimmed (w : List Char) : Prop where
  ne_nil : w ≠ []
  first  : w.head? ≠ some ' '
  last   : w.getLast? ≠ some ' '

theorem IsWord.isTrimmed {w : List Char} (hw : IsWord w) : IsTrimmed w :=
  ⟨hw.ne_nil, fun h => hw.blank (List.mem_of_head? h), fun h => hw.blank (List.mem_of_getLast? h)⟩

theorem IsTrimmed.append {u v : List Char} (hu : IsTrimmed u) (x : List Char) (hv : IsTrimmed v) : IsTrimmed (u ++ x ++ v) where
  ne_nil := by simp [hu.ne_nil]
  first := by rw [List.append_assoc, List.head?_append_of_ne_nil _ hu.ne_nil]; exact hu.first
  last := by rw [List.getLast?_append_of_ne_nil _ hv.ne_nil]; exact hv.last

theorem dropWhile_blank {w : List Char} (hw : w.head? ≠ some ' ') : w.dropWhile (· = ' ') = w := by
  cases w with
  | nil => rfl
  | cons c cs => exact List.dropWhile_cons_of_neg (by simpa using hw)

theorem IsTrimmed.trimBlanks_eq {w : List Char} (hw : IsTrimmed w) : trimBlanks w = w := by
  rw [trimBlanks, dropWhile_blank hw.first, dropWhile_blank (by rw [List.head?_reverse]; exact hw.last), List.reverse_reverse]

theorem trimBlanks_blank (w : List Char) : trimBlanks (' ' :: w) = trimBlanks w := rfl

/-! ### The pieces between commas -/

theorem splitCommas_ne_nil (w : List Char) : splitCommas w ≠ [] := by
  cases w with
  | nil => exact List.cons_ne_nil _ _
  | cons c cs =>
    simp only [splitCommas]
    split
    · exact List.cons_ne_nil _ _
    split <;> exact List.cons_ne_nil _ _

theorem splitCommas_cons {c : Char} (hc : c ≠ ',') {w p : List Char} {ps : List (List Char)} (h : splitCommas w = p :: ps) :
    splitCommas (c :: w) = (c :: p) :: ps := by
  simp only [splitCommas, h, if_neg hc]

theorem splitCommas_comma (w : List Char) : splitCommas (',' :: w) = [] :: splitCommas w := by
  obtain ⟨p, ps, h⟩ := List.exists_cons_of_ne_nil (splitCommas_ne_nil w)
  simp only [splitCommas, h, if_true]

theorem splitCommas_word {w : List Char} (hw : ',' ∉ w) : splitCommas w = [w] := by
  induction w with
  | nil => rfl
  | cons c cs ih =>
    obtain ⟨hc, hcs⟩ : ',' ≠ c ∧ ',' ∉ cs := by rwa [List.mem_cons, not_or] at hw
    exact splitCommas_cons (Ne.symm hc) (ih hcs)

theorem splitCommas_append {w : List Char} (hw : ',' ∉ w) (rest : List Char) :
    splitCommas (w ++ ',' :: rest) = w :: splitCommas rest := by
  induction w with
  | nil => exact splitCommas_comma rest
  | cons c cs ih =>
    obtain ⟨hc, hcs⟩ : ',' ≠ c ∧ ',' ∉ cs := by rwa [List.mem_cons, not_or] at hw
    exact splitCommas_cons (Ne.symm hc) (ih hcs)

theorem map_trimBlanks_splitCommas_blank (w : List Char) :
    (splitCommas (' ' :: w)).map trimBlanks = (splitCommas w).map trimBlanks := by
  obtain ⟨p, ps, h⟩ := List.exists_cons_of_ne_nil (splitCommas_ne_nil w)
  rw [splitCommas_cons (by decide) h, h, List.map_cons, trimBlanks_blank, List.map_cons]

/-! ### The operands of a line -/

theorem renderOperands_cons {k k' : OperandKind} {ks : List OperandKind} {b b' : Byte} {bs : List Byte} :
    renderOperands (k :: k' :: ks) (b :: b' :: bs) =
      renderOperand k b ++ [',', ' '] ++ renderOperands (k' :: ks) (b' :: bs) := rfl

theorem isTrimmed_renderOperands {ks : List OperandKind} {bs : List Byte} (h : List.Forall₂ Assemblable ks bs) (hne : bs ≠ []) :
    IsTrimmed (renderOperands ks bs) := by
  induction h with
  | nil => exact absurd rfl hne
  | @cons k b ks bs _ htail ih =>
    have hfirst : IsTrimmed (renderOperand k b) := (isWord_renderOperand k b).isTrimmed
    cases htail with
    | nil => exact hfirst
    | cons => exact hfirst.append _ (ih (List.cons_ne_nil _ _))

/-- The pieces of the operands' text, without the blank after each comma, are the operands' own texts. -/
theorem pieces_renderOperands {ks : List OperandKind} {bs : List Byte} (h : List.Forall₂ Assemblable ks bs) (hne : bs ≠ []) :
    (splitCommas (renderOperands ks bs)).map trimBlanks = List.zipWith renderOperand ks bs := by
  induction h with
  | nil => exact absurd rfl hne
  | @cons k b ks bs _ htail ih =>
    have hword := isWord_renderOperand k b
    have htrim := hword.isTrimmed.trimBlanks_eq
    cases htail with
    | nil =>
      have hone : splitCommas (renderOperands [k] [b]) = [renderOperand k b] := splitCommas_word hword.comma
      rw [hone, List.map_singleton, htrim]
      rfl
    | cons =>
      rw [renderOperands_cons, List.append_assoc, List.cons_append, List.singleton_append, splitCommas_append hword.comma,
        List.map_cons, htrim, map_trimBlanks_splitCommas_blank, ih (List.cons_ne_nil _ _)]
      rfl

theorem parseOperands_zipWith {ks : List OperandKind} {bs : List Byte} (h : List.Forall₂ Assemblable ks bs) :
    parseOperands ks (List.zipWith renderOperand ks bs) = some bs := by
  induction h with
  | nil => rfl
  | cons hb _ ih => simp only [List.zipWith_cons_cons, parseOperands, parseOperand_renderOperand hb, ih]

/-! ### The line -/

/-- The operands of an instruction with its registers in range are of its handler's kinds (R48). -/
theorem assemblable_operands {i : Instr} (h : i.RegsInRange) :
    List.Forall₂ Assemblable (operandKinds i.handler) i.operands := by
  cases i
  case hlt => exact .nil
  case ret => exact .nil
  all_goals simpa [Instr.RegsInRange, Instr.regOperands, Instr.operands, Instr.handler, operandKinds, Assemblable] using h

theorem instr_of_parsed (i : Instr) : i.handler.instr (i.operands.getD 0 0) (i.operands.getD 1 0) = i := by cases i <;> rfl

/-- A line whose first word is an instruction's mnemonic and whose other text is read as its operands is read as the instruction. -/
theorem parseLine_eq {cfg : Config} {line : List Char} {i : Instr} (hi : i.WellFormed cfg) (htrim : IsTrimmed line)
    (hname : line.takeWhile (· ≠ ' ') = mnemonic i.handler) {ops : List Char}
    (hops : trimBlanks (line.dropWhile (· ≠ ' ')) = ops)
    (hparse : parseOperands (operandKinds i.handler) (if ops = [] then [] else (splitCommas ops).map trimBlanks) = some i.operands) :
    parseLine cfg line = some i := by
  have hon : i.inTable cfg = true := hi
  simp only [parseLine, htrim.trimBlanks_eq, hname, handlerNamed_mnemonic, hops, hparse, instr_of_parsed, hon, if_true]

theorem IsWord.all_ne_blank {w : List Char} (hw : IsWord w) : ∀ c ∈ w, decide (c ≠ ' ') = true :=
  fun _ hc => decide_eq_true fun h => hw.blank (h ▸ hc)

theorem renderLine_of_operands_nil {i : Instr} (h : i.operands = []) : renderLine i = mnemonic i.handler := by
  simp only [renderLine, h]

theorem renderLine_of_operands_ne_nil {i : Instr} (h : i.operands ≠ []) :
    renderLine i = mnemonic i.handler ++ [' '] ++ renderOperands (operandKinds i.handler) i.operands := by
  obtain ⟨b, bs, hops⟩ := List.exists_cons_of_ne_nil h
  simp only [renderLine, hops]

/-- Settles O8: the line is the mnemonic alone, or the mnemonic, a blank and the operands' text. -/
theorem assemblyOfAnInstructionReadsBack : Obligations.AssemblyOfAnInstructionReadsBack := by
  intro cfg i hi hregs
  have hword := isWord_mnemonic i.handler
  have hkinds := assemblable_operands hregs
  by_cases hnone : i.operands = []
  · rw [renderLine_of_operands_nil hnone]
    refine parseLine_eq hi hword.isTrimmed ?_ (ops := []) ?_ ?_
    · exact List.takeWhile_eq_self_iff.mpr hword.all_ne_blank
    · rw [List.dropWhile_eq_nil_iff.mpr hword.all_ne_blank]
      rfl
    · rw [hnone] at hkinds ⊢
      rw [List.forall₂_nil_right_iff.mp hkinds]
      rfl
  · rw [renderLine_of_operands_ne_nil hnone]
    have htext := isTrimmed_renderOperands hkinds hnone
    refine parseLine_eq hi (hword.isTrimmed.append _ htext) ?_ (ops := renderOperands (operandKinds i.handler) i.operands) ?_ ?_
    · rw [List.append_assoc, List.takeWhile_append_of_pos hword.all_ne_blank]
      simp
    · rw [List.append_assoc, List.dropWhile_append_of_pos hword.all_ne_blank]
      exact (trimBlanks_blank _).trans htext.trimBlanks_eq
    · rw [if_neg htext.ne_nil, pieces_renderOperands hkinds hnone, parseOperands_zipWith hkinds]

end Sys2Proof.Machine
end

section
/-! PROOFS. The ALU on its own (40_alu.md R60 to R67): what each of the five selects answers as arithmetic of its two operands, and that
every other select is unsupported. -/

namespace Sys2Proof.Machine

open Sys2Proof.Laws

/-! ### ADD, SUB and MUL (R62, R63, R64) -/

theorem aluAdd_toNat (A B : Byte) : (aluAdd A B).toNat = (A.toNat + B.toNat) % 256 := by
  rw [aluAdd, BitVec.toNat_ofNat, Nat.mod_mod]

theorem aluMul_toNat (A B : Byte) : (aluMul A B).toNat = A.toNat * B.toNat % 256 := by
  rw [aluMul, BitVec.toNat_ofNat, Nat.mod_mod]

/-- The difference wraps as the spec's `A - B + 256` does, so that it is a sum of naturals. -/
theorem aluSub_toNat (A B : Byte) : (aluSub A B).toNat = (A.toNat + 256 - B.toNat) % 256 := by
  have hB := B.isLt
  rw [aluSub, BitVec.toNat_ofInt]
  omega

/-- Settles O9: the two cases of R63 are those of the wrapped difference. -/
theorem aluAddSubMulWrapModulo256 : Obligations.AluAddSubMulWrapModulo256 := by
  intro A B
  have hA := A.isLt
  have hsub := aluSub_toNat A B
  exact ⟨aluAdd A B, aluSub A B, aluMul A B, rfl, aluAdd_toNat A B, rfl, fun hle => by omega, fun hlt => by omega, rfl,
    aluMul_toNat A B⟩

/-! ### DIV (R65) -/

/-- A quotient of bytes is a byte: nothing is lost. -/
theorem quotient_toNat (A B : Byte) : (BitVec.ofNat 8 (A.toNat / B.toNat)).toNat = A.toNat / B.toNat := by
  rw [BitVec.toNat_ofNat, Nat.mod_eq_of_lt (Nat.lt_of_le_of_lt (Nat.div_le_self _ _) A.isLt)]

/-- Settles O10: the quotient is the library's floor division. -/
theorem aluDivIsFloorDivisionOrDivideByZero : Obligations.AluDivIsFloorDivisionOrDivideByZero := by
  intro A B
  have hdiv : aluCore 3 A B = aluDiv A B := rfl
  rw [hdiv, aluDiv]
  refine ⟨fun h0 => if_pos (BitVec.eq_of_toNat_eq h0), fun h0 => ?_⟩
  refine ⟨_, if_neg fun hB => h0 (congrArg BitVec.toNat hB), ?_, ?_⟩ <;> rw [quotient_toNat]
  · exact Nat.div_mul_le_self _ _
  · rw [Nat.succ_mul]
    exact Nat.lt_div_mul_add (Nat.pos_of_ne_zero h0)

/-! ### CMP (R66) -/

/-- The three flags are the three unsigned comparisons. -/
theorem cmpFlags_eq (A B : Byte) :
    cmpFlags A B = ⟨decide (A.toNat = B.toNat), decide (A.toNat < B.toNat), decide (B.toNat < A.toNat)⟩ := by
  unfold cmpFlags
  dsimp only
  split
  · next heq => simp [heq]
  next hne =>
  have hne' : A.toNat ≠ B.toNat := fun h => hne (BitVec.eq_of_toNat_eq h)
  split
  · next hlt => simp [hne', hlt, Nat.le_of_lt hlt]
  · next hge => simp [hne', hge, show B.toNat < A.toNat by omega]

theorem cmpFlags_compare (A B : Byte) :
    ((cmpFlags A B).e = true ↔ A.toNat = B.toNat) ∧ ((cmpFlags A B).l = true ↔ A.toNat < B.toNat) ∧
    ((cmpFlags A B).g = true ↔ B.toNat < A.toNat) := by
  simp only [cmpFlags_eq, decide_eq_true_iff, and_self]

/-- Settles O11: `cmpFlags_compare`, and one of the three comparisons holds. -/
theorem aluCmpSetsExactlyOneFlag : Obligations.AluCmpSetsExactlyOneFlag := by
  intro A B
  obtain ⟨he, hl, hg⟩ := cmpFlags_compare A B
  exact ⟨cmpFlags A B, rfl, he, hl, hg, cmpFlags_exactlyOne A B⟩

/-! ### The other selects (R67) -/

theorem aluCore_unsupported {op : BitVec 4} (hop : op.toNat ∉ [0, 1, 2, 3, 7]) (A B : Byte) :
    aluCore op A B = .unsupported op := by
  have hne (k : BitVec 4) (hk : k.toNat ∈ [0, 1, 2, 3, 7]) : op ≠ k := fun h => hop (h ▸ hk)
  rw [aluCore, if_neg (hne 0x0 (by decide)), if_neg (hne 0x1 (by decide)), if_neg (hne 0x2 (by decide)),
    if_neg (hne 0x3 (by decide)), if_neg (hne 0x7 (by decide))]

theorem aluHandler_unsupported {op : BitVec 4} (hop : op.toNat ∉ [0, 1, 2, 3, 7]) {a b : Byte} (s : State)
    (ha : a.toNat < 8) (hb : b.toNat < 8) : aluHandler op a b s = .error (unsupportedOperation op) := by
  simp only [aluHandler, checkReg_ok ha, checkReg_ok hb, ok_bind, aluCore_unsupported hop]

/-- The five ALU handlers' opcodes hold the five selects. -/
theorem aluSelect_opcode_mem {hd : Handler} (halu : hd.isAlu = true) : (aluSelect hd.opcode).toNat ∈ [0, 1, 2, 3, 7] := by
  revert halu
  cases hd <;> decide

/-- A select the decoder drives is that of an ALU handler's opcode. -/
theorem aluOp_eq_some {cfg : Config} {ir : Byte} {op : BitVec 4} (e : (decodeOpcode cfg ir).aluOp = some op) :
    ∃ hd : Handler, hd.isAlu = true ∧ op = aluSelect hd.opcode := by
  rcases ht : opcodeTable cfg ir with _ | hd
  · simp [decodeOpcode, ht] at e
  obtain ⟨rfl, -⟩ := opcodeTable_some ht
  rw [decodeOpcode_aluOp ht, Option.ite_none_right_eq_some] at e
  exact ⟨hd, e.1, (Option.some.inj e.2).symm⟩

/-- Settles O12: such a select falls through the ALU's five, and the decoder's selects are those of the five opcodes. -/
theorem aluRaisesUnsupportedOperationOnOtherSelects : Obligations.AluRaisesUnsupportedOperationOnOtherSelects := by
  refine ⟨fun op hop => ⟨fun A B => ?_, fun a b s ha hb => aluHandler_unsupported hop s ha hb⟩, fun cfg ir op e => ?_⟩
  · rw [aluCore_unsupported hop]
    exact ⟨rfl, rfl, rfl⟩
  · obtain ⟨hd, halu, rfl⟩ := aluOp_eq_some e
    exact aluSelect_opcode_mem halu

end Sys2Proof.Machine
end

section
/-! PROOFS. The arithmetic instructions (40_alu.md R68 to R72): each is its encoding, its effect with what it keeps, and its two index
checks. -/

namespace Sys2Proof.Machine

open Sys2Proof.Laws Sys2Proof.Statement

/-! ### What they share -/

/-- An instruction whose whole write is one register: the value, the pc after it, and all the rest kept. -/
theorem exec_writeReg_frame {i : Instr} {s : State} {k : Fin 8} {v : Byte}
    (e : exec i s = .next ((s.writeReg k v).pcControl i.handler.opcode)) :
    ∃ t, exec i s = .next t ∧ t.reg k = v ∧ t.pc = s.pc + pcStep i.handler ∧ Frame [k] [] s t := by
  refine ⟨_, e, by simp, by simp, ⟨fun j hj => ?_, fun x _ => by simp, by simp, ⟨by simp, by simp, by simp⟩, by simp, by simp⟩⟩
  rw [State.pcControl_reg, State.reg_writeReg_other s v (by simpa using hj)]

/-- An instruction with two register operands checks both, opA first (00_scope.md R14). -/
theorem checksBothIndices {mk : Byte → Byte → Instr} (hmk : ∀ a b, (mk a b).regOperands = [a, b]) : ChecksBothIndices mk := by
  refine fun a b s => ⟨fun ha => raisesAt_outOfBounds (exec_badA _ s ?_ ha), fun ha hb =>
    raisesAt_outOfBounds (exec_badTail s (hmk a b) ha (List.mem_singleton_self b) hb)⟩
  rw [hmk, List.head?_cons]

/-! ### SUB and DIV without ENABLE_SUB_DIV (00_scope.md R8) -/

theorem opcodeTable_of_inTable_false {cfg : Config} {i : Instr} (h : i.inTable cfg = false) :
    opcodeTable cfg i.handler.opcode = none := by
  have hcond : (decide (i.handler = .sub ∨ i.handler = .div) && !cfg.enableSubDiv) = true := by
    cases i
    case sub => exact congrArg (!·) h
    case div => exact congrArg (!·) h
    all_goals cases h
  rw [opcodeTable_handler_opcode, if_pos hcond]

/-- The bytes of an instruction decode to it, or its opcode is illegal when the parameter does not have it. -/
theorem decode_encode_eq (cfg : Config) (i : Instr) :
    decode cfg (encode i) = if i.inTable cfg then .ok (i, []) else .error (.illegal i.handler.opcode) := by
  split
  · next hi => rw [← List.append_nil (encode i), decode_encode hi]
  · next hi => simp only [encode, decode, opcodeTable_of_inTable_false (Bool.eq_false_iff.mpr hi)]

/-- A step at the opcode of an instruction the parameter does not have raises IllegalInstruction of it (30_encoding.md R51). -/
theorem stepWith_inTable_false {cfg : Config} {i : Instr} (hi : i.inTable cfg = false) {s : State} (hrun : s.Running)
    (hp : s.pc.toNat < 256) (hread : s.mem.read s.pc.toNat = i.handler.opcode) :
    ∃ t, stepWith cfg s = .next t ∧ t.halted = true ∧ t.faultCause = 1 ∧ t.faultInfo = zext9 i.handler.opcode ∧
      ProgramStateKept s t := by
  obtain ⟨-, -, -, raises⟩ := bytesWithoutHandlerRaiseIllegalInstruction cfg
  rw [← hread]
  exact raises s hrun hp (hread ▸ opcodeTable_of_inTable_false hi)

/-! ### The five instructions -/

/-- Settles O13, over `exec_add`. -/
theorem addWritesTheSumModulo256 : Obligations.AddWritesTheSumModulo256 := by
  refine ⟨fun cfg a b => decode_encode_eq cfg (.add a b), fun a b s ha hb => ?_, checksBothIndices fun _ _ => rfl⟩
  obtain ⟨t, e, hreg, hpc, hframe⟩ := exec_writeReg_frame (exec_add s ha hb)
  exact ⟨t, e, hreg ▸ aluAdd_toNat _ _, hpc, hframe⟩

/-- Settles O14, over `exec_sub`. -/
theorem subWritesTheDifferenceModulo256 : Obligations.SubWritesTheDifferenceModulo256 := by
  refine ⟨fun cfg a b => decode_encode_eq cfg (.sub a b),
    fun s hrun hp hread => stepWith_inTable_false (i := .sub 0 0) rfl hrun hp hread,
    fun a b s ha hb => ?_, checksBothIndices fun _ _ => rfl⟩
  obtain ⟨t, e, hreg, hpc, hframe⟩ := exec_writeReg_frame (exec_sub s ha hb)
  exact ⟨t, e, hreg ▸ aluSub_toNat _ _, hpc, hframe⟩

/-- Settles O15, over `exec_mul`. -/
theorem mulWritesTheLowByteOfTheProduct : Obligations.MulWritesTheLowByteOfTheProduct := by
  refine ⟨fun cfg a b => decode_encode_eq cfg (.mul a b), fun a b s ha hb => ?_, checksBothIndices fun _ _ => rfl⟩
  obtain ⟨t, e, hreg, hpc, hframe⟩ := exec_writeReg_frame (exec_mul s ha hb)
  exact ⟨t, e, hreg ▸ aluMul_toNat _ _, hpc, hframe⟩

/-- Settles O16, over `exec_div` and `exec_div_zero`. -/
theorem divWritesTheQuotientOrRaisesDivideByZero : Obligations.DivWritesTheQuotientOrRaisesDivideByZero := by
  refine ⟨fun cfg a b => decode_encode_eq cfg (.div a b),
    fun s hrun hp hread => stepWith_inTable_false (i := .div 0 0) rfl hrun hp hread,
    fun a b s ha hb h0 => ?_, fun a b s hb ha h0 => ⟨_, exec_div_zero s ha hb h0, rfl⟩, checksBothIndices fun _ _ => rfl⟩
  obtain ⟨t, e, hreg, hpc, hframe⟩ := exec_writeReg_frame (exec_div s ha hb h0)
  exact ⟨t, e, hreg ▸ quotient_toNat _ _, hpc, hframe⟩

/-- Settles O17, over `exec_cmp`. -/
theorem cmpWritesTheThreeFlags : Obligations.CmpWritesTheThreeFlags := by
  refine ⟨fun cfg a b => decode_encode_eq cfg (.cmp a b), fun a b s ha hb => ?_, checksBothIndices fun _ _ => rfl⟩
  obtain ⟨he, hl, hg⟩ := cmpFlags_compare (s.reg ⟨a.toNat, ha⟩) (s.reg ⟨b.toNat, hb⟩)
  exact ⟨_, exec_cmp s ha hb, he, hl, hg, cmpFlags_exactlyOne _ _, State.pcControl_opcode_pc _ .cmp, fun _ _ => rfl,
    fun _ _ => rfl, ⟨rfl, rfl, rfl⟩, rfl, rfl⟩

end Sys2Proof.Machine
end

section
/-! PROOFS. Load, print and halt (41_load_print_halt.md R73 to R75), and that the output port is PRN's alone (60_exceptions.md R93). -/

namespace Sys2Proof.Machine

open Sys2Proof.Statement

/-! ### What they share -/

/-- An instruction whose first operand is a register checks it (00_scope.md R14). -/
theorem checksIndex {mk : Byte → Instr} (hmk : ∀ a, (mk a).regOperands.head? = some a) : ChecksIndex mk :=
  fun a s ha => raisesAt_outOfBounds (exec_badA _ s (hmk a) ha)

/-! ### The output port and the host's text (R74) -/

/-- A step that keeps the output stream shows nothing on the output port. -/
theorem outputPort_of_kept {s t : State} (h : t.output = s.output) : outputPort s t = none := by
  rw [outputPort, h, List.getElem?_eq_none (Nat.le_refl _)]

/-- A step that appends a value to the output stream shows it on the output port. -/
theorem outputPort_of_appended {s t : State} {v : Byte} (h : t.output = s.output ++ [v]) : outputPort s t = some v := by
  rw [outputPort, h, List.getElem?_concat_length]

/-- A value appended to the output stream is its decimal digits and one line end appended to the host's text. -/
theorem renderOutput_concat (out : List Byte) (v : Byte) :
    renderOutput (out ++ [v]) = renderOutput out ++ Nat.toDigits 10 v.toNat ++ lineEnd := by
  simp [renderOutput, renderValue]

/-- Only PRN appends to the output stream (60_exceptions.md R93). -/
theorem ExecEffect.output_eq {i : Instr} {s t : State} (ht : ExecEffect s i t) (hi : ∀ a, i ≠ .prn a) : t.output = s.output := by
  cases ht with
  | print => exact absurd rfl (hi _)
  | badIndex | zeroDivisor | returnOutside | call | ret | jump | noJump => rfl
  | setReg | compare | halt | push | pop => exact State.pcControl_output _ _

/-! ### The three instructions -/

/-- Settles O18, over `exec_ldi`. -/
theorem ldiWritesTheImmediate : Obligations.LdiWritesTheImmediate :=
  ⟨fun cfg a imm => decode_encode_eq cfg (.ldi a imm), fun _ imm s ha => exec_writeReg_frame (exec_ldi imm s ha),
    fun a imm s => checksIndex (mk := (.ldi · imm)) (fun _ => rfl) a s⟩

/-- Settles O19, over `exec_prn`. -/
theorem prnAppendsTheRegisterToTheOutput : Obligations.PrnAppendsTheRegisterToTheOutput := by
  refine ⟨fun cfg a => decode_encode_eq cfg (.prn a), fun a s ha => ?_, checksIndex fun _ => rfl⟩
  have hout := State.pcControl_output (s.emit (s.reg ⟨a.toNat, ha⟩)) Handler.prn.opcode
  exact ⟨_, exec_prn s ha, hout, outputPort_of_appended hout, (congrArg renderOutput hout).trans (renderOutput_concat _ _),
    State.pcControl_opcode_pc _ .prn, fun _ _ => rfl, fun _ _ => rfl, rfl, ⟨rfl, rfl, rfl⟩, rfl⟩

/-- Settles O34: PRN with its index in range shows its register, and every other run keeps the output stream. -/
theorem onlyPrnDrivesTheOutputPort : Obligations.OnlyPrnDrivesTheOutputPort := by
  intro i s t v e hport
  have hchanged : t.output ≠ s.output := fun h => by
    rw [outputPort_of_kept h] at hport
    cases hport
  by_cases hi : ∀ a, i ≠ .prn a
  · exact absurd ((exec_next_effect e).output_eq hi) hchanged
  obtain ⟨a, rfl⟩ : ∃ a, i = .prn a := by simpa using hi
  rcases Nat.lt_or_ge a.toNat 8 with ha | ha
  · rw [exec_prn s ha] at e
    cases e
    rw [outputPort_of_appended (State.pcControl_output _ _)] at hport
    exact ⟨a, ha, rfl, (Option.some.inj hport).symm⟩
  · rw [exec_badA (.prn a) s rfl ha] at e
    cases e
    exact absurd rfl hchanged

/-- Settles O20, over `exec_hlt`; the state it answers is halted, so a run keeps it by `runWith_halted`. -/
theorem hltHaltsAndAdvancesByOne : Obligations.HltHaltsAndAdvancesByOne :=
  ⟨fun cfg => decode_encode_eq cfg .hlt, fun s => ⟨_, exec_hlt s, rfl, State.pcControl_opcode_pc _ .hlt, rfl, rfl,
    fun _ _ => rfl, fun _ _ => rfl, rfl, rfl, rfl, fun cfg k => runWith_halted cfg rfl k⟩⟩

end Sys2Proof.Machine
end

section
/-! PROOFS. The stack (42_stack.md R77 to R79): what PUSH and POP leave unchanged, told write by write, and that POP undoes PUSH. -/

namespace Sys2Proof.Machine

open Sys2Proof.Statement

/-! ### The frame, one write at a time -/

section

variable {ks : List (Fin 8)} {xs : List Byte} {s t : State}

theorem Frame.refl (ks : List (Fin 8)) (xs : List Byte) (s : State) : Frame ks xs s s :=
  ⟨fun _ _ => rfl, fun _ _ => rfl, rfl, ⟨rfl, rfl, rfl⟩, rfl, rfl⟩

theorem Frame.writeReg (h : Frame ks xs s t) {k : Fin 8} (hk : k ∈ ks) (v : Byte) : Frame ks xs s (t.writeReg k v) where
  regs j hj := (State.reg_writeReg_other t v (ne_of_mem_of_not_mem hk hj).symm).trans (h.regs j hj)
  mem := h.mem
  fl := h.fl
  status := h.status
  output := h.output
  latch := h.latch

theorem Frame.decSp (h : Frame ks xs s t) (h7 : 7 ∈ ks) : Frame ks xs s t.decSp := h.writeReg h7 _

theorem Frame.incSp (h : Frame ks xs s t) (h7 : 7 ∈ ks) : Frame ks xs s t.incSp := h.writeReg h7 _

theorem Frame.writeByte (h : Frame ks xs s t) {x : Byte} (hx : x ∈ xs) (v : Byte) : Frame ks xs s (t.writeByte x v) where
  regs := h.regs
  mem y hy := by
    rw [State.writeByte_readByte, if_neg (ne_of_mem_of_not_mem hx hy).symm, h.mem y hy]
  fl := h.fl
  status := h.status
  output := h.output
  latch := h.latch

/-- The pc is not part of the frame. -/
theorem Frame.pcControl (h : Frame ks xs s t) (ir : Byte) : Frame ks xs s (t.pcControl ir) := by
  unfold State.pcControl
  split
  · exact h
  · exact ⟨h.regs, h.mem, h.fl, h.status, h.output, h.latch⟩

end

/-! ### SP as a number (R77) -/

theorem State.decSp_sp_toNat (s : State) : s.decSp.sp.toNat = (s.sp.toNat + 255) % 256 := by
  rw [State.decSp_sp, BitVec.toNat_sub, Nat.add_comm]
  rfl

theorem State.incSp_sp_toNat (s : State) : s.incSp.sp.toNat = (s.sp.toNat + 1) % 256 := by
  rw [State.incSp_sp, BitVec.toNat_add]
  rfl

/-! ### PUSH (R78) -/

/-- Settles O21, over `exec_push`. -/
theorem pushDecrementsSpAndStores : Obligations.PushDecrementsSpAndStores := by
  refine ⟨fun cfg a => decode_encode_eq cfg (.push a), fun a s ha => ?_, checksIndex fun _ => rfl⟩
  refine ⟨_, exec_push s ha, ?_, ?_, State.pcControl_sp _ _, State.pcControl_opcode_pc _ .push, ?_⟩
  · rw [State.pcControl_sp, State.writeByte_sp, State.decSp_sp_toNat]
  · rw [State.pcControl_readByte, State.writeByte_readByte_same, State.decSp_reg_byte]
  · have hframe : Frame [7] [s.decSp.sp] s s.decSp := (Frame.refl _ _ s).decSp (List.mem_singleton_self _)
    exact (hframe.writeByte (List.mem_singleton_self _) _).pcControl _

/-! ### POP (R79) -/

/-- Settles O22: the increment is of the loaded byte when the register loaded is R7, and else of the old SP. -/
theorem popLoadsAndIncrementsSp : Obligations.PopLoadsAndIncrementsSp := by
  refine ⟨fun cfg a => decode_encode_eq cfg (.pop a), fun a s ha => ?_, checksIndex fun _ => rfl⟩
  refine ⟨_, exec_pop s ha, fun h7 => ?_, fun h7 => ?_, State.pcControl_opcode_pc _ .pop, ?_⟩
  · have hne : (⟨a.toNat, ha⟩ : Fin 8) ≠ Config.spIndex := fun e => h7 (congrArg Fin.val e)
    rw [State.pcControl_reg, State.incSp_reg, if_neg hne, State.reg_writeReg_same, State.pcControl_sp, State.incSp_sp_toNat,
      State.writeReg_sp, if_neg hne]
    exact ⟨rfl, rfl⟩
  · have heq : (⟨a.toNat, ha⟩ : Fin 8) = Config.spIndex := Fin.ext h7
    rw [State.pcControl_sp, State.incSp_sp_toNat, State.writeReg_sp, if_pos heq]
  · have hframe := (Frame.refl [⟨a.toNat, ha⟩, 7] [] s).writeReg List.mem_cons_self (s.readByte s.sp)
    exact (hframe.incSp (List.mem_cons_of_mem _ List.mem_cons_self)).pcControl _

/-! ### PUSH, then POP -/

theorem State.writeReg_self (s : State) (k : Fin 8) : s.writeReg k (s.reg k) = s := by
  simp [State.writeReg, State.reg]

/-- When the byte at SP is what the register holds, POP only increments SP, and so for R7 too. -/
theorem exec_pop_of_top_eq {a : Byte} {s : State} (ha : a.toNat < 8) (htop : s.readByte s.sp = s.reg ⟨a.toNat, ha⟩) :
    exec (.pop a) s = .next (s.incSp.pcControl Handler.pop.opcode) := by
  rw [exec_pop s ha, htop, State.writeReg_self]

theorem State.incSp_reg_of_decSp {s t : State} (h : ∀ k, t.reg k = s.decSp.reg k) (k : Fin 8) : t.incSp.reg k = s.reg k := by
  have hsp : t.sp = s.sp - 1 := (h _).trans s.decSp_sp
  rw [State.incSp_reg, h, State.decSp_reg]
  split
  · next h7 => rw [hsp, BitVec.sub_add_cancel, h7, State.sp]
  · rfl

/-- Settles O23: after the PUSH the byte at SP is what the register holds, so the POP only takes the decrement of SP back. -/
theorem pushThenPopRestoresRegisterAndSp : Obligations.PushThenPopRestoresRegisterAndSp := by
  intro a s ha
  refine ⟨_, _, exec_push s ha, exec_pop_of_top_eq ha ?_, fun k _ => ?_, ?_⟩
  · simp only [State.pcControl_readByte, State.pcControl_sp, State.pcControl_reg, State.writeByte_reg]
    exact State.writeByte_readByte_same _ _ _
  · rw [State.pcControl_reg]
    refine State.incSp_reg_of_decSp (fun j => ?_) k
    rw [State.pcControl_reg, State.writeByte_reg]
  · rw [State.pcControl_opcode_pc, State.incSp_pc, State.pcControl_opcode_pc, BitVec.add_assoc]
    rfl

end Sys2Proof.Machine
end

section
/-! PROOFS. Control transfer (43_control_transfer.md R81 to R85): the three jumps share one lemma, and a RET after its CALL is read off
what each of the two does. -/

namespace Sys2Proof.Machine

open Sys2Proof.Statement

/-! ### What they share -/

/-- The frame says nothing of `pc`, so a write of it keeps the frame. -/
theorem Frame.setPc {ks : List (Fin 8)} {xs : List Byte} {s t : State} (h : Frame ks xs s t) (p : Addr) :
    Frame ks xs s (t.setPc p) := ⟨h.regs, h.mem, h.fl, h.status, h.output, h.latch⟩

/-- The pc a control transfer leaves is the one its handler set (30_encoding.md R56). -/
theorem State.pcControl_pc_of_pcStep_zero (t : State) {h : Handler} (h0 : pcStep h = 0) : (t.pcControl h.opcode).pc = t.pc :=
  congrArg State.pc (State.pcControl_of_pcStep_zero t h0)

/-- A control transfer that writes only `pc` keeps everything else. -/
theorem exec_setPc_frame {i : Instr} {s : State} {p : Addr} (h0 : pcStep i.handler = 0)
    (e : exec i s = .next ((s.setPc p).pcControl i.handler.opcode)) : ∃ t, exec i s = .next t ∧ t.pc = p ∧ Frame [] [] s t :=
  ⟨_, e, State.pcControl_pc_of_pcStep_zero _ h0, ((Frame.refl [] [] s).setPc p).pcControl _⟩

/-! ### CALL (R81) -/

/-- The return address of a CALL below 254 fits a byte. -/
theorem toNat_returnAddress {p : Addr} (hp : p.toNat < 254) : (BitVec.ofNat 8 (p.toNat + 2)).toNat = p.toNat + 2 := by
  rw [BitVec.toNat_ofNat, Nat.mod_eq_of_lt (by omega)]

/-- Settles O24, over `exec_call` and `exec_call_fault`. -/
theorem callPushesReturnAddressAndJumps : Obligations.CallPushesReturnAddressAndJumps := by
  refine ⟨fun cfg a => decode_encode_eq cfg (.call a), fun a s ha hp => ?_, fun a s ha hlo _ => ?_, checksIndex fun _ => rfl⟩
  · refine ⟨_, exec_call s ha (by omega), State.pcControl_sp _ _, ?_, ?_, ?_, ?_⟩
    · rw [State.pcControl_sp, State.setPc_sp, State.writeByte_sp, State.decSp_sp_toNat]
    · rw [State.pcControl_readByte, State.setPc_readByte, State.writeByte_readByte_same, toNat_returnAddress hp]
    · rw [State.pcControl_pc_of_pcStep_zero _ rfl, State.setPc_pc, State.decSp_reg_byte]
    · have hframe : Frame [7] [s.decSp.sp] s s.decSp := (Frame.refl _ _ s).decSp (List.mem_singleton_self _)
      exact ((hframe.writeByte (List.mem_singleton_self _) _).setPc _).pcControl _
  · exact ⟨_, exec_call_fault s ha (by omega), by rw [outOfBounds_addr]; rfl⟩

/-! ### RET (R82) -/

/-- Settles O25, over `exec_ret`. -/
theorem retPopsThePc : Obligations.RetPopsThePc := by
  refine ⟨fun cfg => decode_encode_eq cfg .ret, fun s => ⟨_, exec_ret s, ?_, ?_, ?_⟩⟩
  · rw [State.pcControl_pc_of_pcStep_zero _ rfl, State.incSp_pc, State.setPc_pc]
  · rw [State.pcControl_sp, State.incSp_sp_toNat, State.setPc_sp]
  · exact (((Frame.refl [7] [] s).setPc _).incSp (List.mem_singleton_self _)).pcControl _

/-- Settles O26: the byte at SP is the return address the CALL pushed, and the increment of SP takes its decrement back. -/
theorem retResumesAfterTheCall : Obligations.RetResumesAfterTheCall := by
  obtain ⟨-, call, -⟩ := callPushesReturnAddressAndJumps
  obtain ⟨-, ret⟩ := retPopsThePc
  intro a s ha hp
  obtain ⟨t, ecall, htsp, htsp_toNat, hpushed, -⟩ := call a s ha hp
  refine ⟨t, ecall, fun v hsp htop => ?_⟩
  obtain ⟨u, eret, hupc, husp, -⟩ := ret v
  refine ⟨u, eret, BitVec.eq_of_toNat_eq ?_, BitVec.eq_of_toNat_eq ?_⟩
  · calc u.pc.toNat = (t.readByte s.decSp.sp).toNat := by rw [hupc, zext9_toNat, htop, htsp]
      _ = s.pc.toNat + 2 := hpushed
      _ = (s.pc + 2).toNat := by bv_omega
  · calc u.sp.toNat = ((s.sp.toNat + 255) % 256 + 1) % 256 := by rw [husp, hsp, htsp_toNat]
      _ = s.sp.toNat := by have := s.sp.isLt; omega

/-! ### The jumps (R83 to R85) -/

/-- Settles O27, over `exec_jmp`. -/
theorem jmpSetsThePc : Obligations.JmpSetsThePc :=
  ⟨fun cfg a => decode_encode_eq cfg (.jmp a), fun _ s ha => exec_setPc_frame rfl (exec_jmp s ha), checksIndex fun _ => rfl⟩

/-- Settles O28, over `exec_jeq`. -/
theorem jeqJumpsWhenEqualIsSet : Obligations.JeqJumpsWhenEqualIsSet := by
  refine ⟨fun cfg a => decode_encode_eq cfg (.jeq a), fun a s ha => ?_, checksIndex fun _ => rfl⟩
  obtain ⟨t, e, hpc, hframe⟩ := exec_setPc_frame rfl (exec_jeq s ha)
  exact ⟨t, e, fun hset => hpc.trans (if_pos hset), fun hclear => hpc.trans (if_neg (Bool.eq_false_iff.mp hclear)), hframe⟩

/-- Settles O29, over `exec_jne`. -/
theorem jneJumpsWhenEqualIsClear : Obligations.JneJumpsWhenEqualIsClear := by
  refine ⟨fun cfg a => decode_encode_eq cfg (.jne a), fun a s ha => ?_, checksIndex fun _ => rfl⟩
  obtain ⟨t, e, hpc, hframe⟩ := exec_setPc_frame rfl (exec_jne s ha)
  refine ⟨t, e, fun hclear => ?_, fun hset => ?_, hframe⟩
  · rw [hpc, hclear]; rfl
  · rw [hpc, hset]; rfl

end Sys2Proof.Machine
end

section
/-! PROOFS. Faults (60_exceptions.md R87, R89): a step of the running block takes the first failing check of R89's list and nothing
else, or keeps the fault status when no check fails. The fetch does items 1 to 3 of the list, the instruction items 4 and 5. -/

namespace Sys2Proof.Machine

open Sys2Proof.Laws Sys2Proof.Statement

/-! ### What a step owes to the outcome of the checks -/

/-- What a step from `s` leaves for the outcome of the checks: a failing check is taken as the fault, with only the latches besides,
and no failing check keeps the fault status. -/
inductive CheckTaken (s : State) : Option (BitVec 3 × Addr) → State → Prop
  | fault (f : FaultRecord) (l : Latches) : CheckTaken s (some (f.cause.code, f.info)) ((s.setLatch l).takeFault f)
  | noFault {t : State} (hcause : t.faultCause = s.faultCause) (hinfo : t.faultInfo = s.faultInfo) : CheckTaken s none t

theorem CheckTaken.of_setLatch {s t : State} {l : Latches} {c : Option (BitVec 3 × Addr)} (h : CheckTaken (s.setLatch l) c t) :
    CheckTaken s c t := by
  cases h with
  | fault f l' => exact .fault f l'
  | noFault hcause hinfo => exact .noFault hcause hinfo

/-- A failing check is recorded, halts the block and keeps the program state (R87). -/
theorem CheckTaken.precise {s t : State} {code : BitVec 3} {info : Addr} (h : CheckTaken s (some (code, info)) t) :
    t.faultCause = code ∧ t.faultInfo = info ∧ t.halted = true ∧ ProgramStateKept s t := by
  cases h with
  | fault => exact ⟨rfl, rfl, rfl, ⟨rfl, rfl, rfl, rfl, rfl⟩⟩

theorem CheckTaken.status_kept {s t : State} (h : CheckTaken s none t) :
    t.faultCause = s.faultCause ∧ t.faultInfo = s.faultInfo := by
  cases h with
  | noFault hcause hinfo => exact ⟨hcause, hinfo⟩

/-! ### The checks of an instruction (R89, items 4 and 5) -/

theorem handlerCheck_firstBad {i : Instr} (s : State) {r : Byte} (hr : i.regOperands.find? (fun r => 8 ≤ r.toNat) = some r) :
    handlerCheck i s = some (2, zext9 r) := by
  simp only [handlerCheck, hr]

theorem find?_regOperands {i : Instr} (h : i.RegsInRange) : i.regOperands.find? (fun r => 8 ≤ r.toNat) = none := by
  simpa using h

theorem handlerCheck_div {a b : Byte} (s : State) (h : (Instr.div a b).RegsInRange) (hb : b.toNat < 8) :
    handlerCheck (.div a b) s = if s.reg ⟨b.toNat, hb⟩ = 0 then some (3, zext9 b) else none := by
  have hread : s.regs[b.toNat]? = some (s.reg ⟨b.toNat, hb⟩) := Vector.getElem?_eq_getElem hb
  simp only [handlerCheck, find?_regOperands h, hread, Option.some.injEq]

theorem handlerCheck_call {a : Byte} (s : State) (h : (Instr.call a).RegsInRange) :
    handlerCheck (.call a) s = if s.pc.toNat = 254 then some (2, 256) else none := by
  simp only [handlerCheck, find?_regOperands h]

/-- DIV and CALL alone check more than their register indices. -/
theorem handlerCheck_inRange {i : Instr} (s : State) (h : i.RegsInRange) (hdiv : ∀ a b, i ≠ .div a b) (hcall : ∀ a, i ≠ .call a) :
    handlerCheck i s = none := by
  simp only [handlerCheck, find?_regOperands h]

/-- An instruction with its register indices in range and no check of its own keeps the fault status. -/
theorem ExecEffect.faultStatus_eq {i : Instr} {s t : State} (ht : ExecEffect s i t) (h : i.RegsInRange)
    (hdiv : ∀ a b, i ≠ .div a b) (hcall : ∀ a, i ≠ .call a) : t.faultCause = s.faultCause ∧ t.faultInfo = s.faultInfo := by
  cases ht with
  | badIndex hr h8 => exact absurd (h _ hr) (by omega)
  | zeroDivisor => exact absurd rfl (hdiv _ _)
  | returnOutside => exact absurd rfl (hcall _)
  | _ => exact ⟨by simp, by simp⟩

theorem exec_div_checkTaken {a b : Byte} (s : State) (h : (Instr.div a b).RegsInRange) :
    ∃ t, exec (.div a b) s = .next t ∧ CheckTaken s (handlerCheck (.div a b) s) t := by
  have ha : a.toNat < 8 := h a (by simp [Instr.regOperands])
  have hb : b.toNat < 8 := h b (by simp [Instr.regOperands])
  rw [handlerCheck_div s h hb]
  split
  · next h0 => exact ⟨_, exec_div_zero s ha hb h0, .fault (divideByZero b) s.latch⟩
  · next h0 => exact ⟨_, exec_div s ha hb h0, .noFault (by simp) (by simp)⟩

/-- The last address a CALL can be fetched from is 254, where its return address is past memory (43_control_transfer.md R81). -/
theorem exec_call_checkTaken {a : Byte} (s : State) (h : (Instr.call a).RegsInRange) (hp : s.pc.toNat < 255) :
    ∃ t, exec (.call a) s = .next t ∧ CheckTaken s (handlerCheck (.call a) s) t := by
  have ha : a.toNat < 8 := h a (by simp [Instr.regOperands])
  rw [handlerCheck_call s h]
  split
  · next h254 =>
    have e := exec_call_fault s ha (by omega)
    rw [h254, outOfBounds_addr] at e
    exact ⟨_, e, .fault ⟨.outOfBounds, 256⟩ s.latch⟩
  · next h254 => exact ⟨_, exec_call s ha (by omega), .noFault (by simp) (by simp)⟩

/-- An instruction whose bytes stand in memory takes the first failing check of its handler. -/
theorem exec_checkTaken (i : Instr) (s : State) (hfit : s.pc.toNat + i.operands.length < 256) :
    ∃ t, exec i s = .next t ∧ CheckTaken s (handlerCheck i s) t := by
  rcases regsInRange_or_firstBad i with hreg | ⟨r, hr⟩
  swap
  · rw [handlerCheck_firstBad s hr]
    exact ⟨_, exec_firstBadOperand s hr, .fault (outOfBounds r) s.latch⟩
  cases i with
  | div a b => exact exec_div_checkTaken s hreg
  | call a => exact exec_call_checkTaken s hreg (Nat.lt_of_succ_lt_succ hfit)
  | _ =>
    obtain ⟨t, e, ht⟩ := exec_effect _ s
    obtain ⟨hcause, hinfo⟩ := ht.faultStatus_eq hreg nofun nofun
    exact ⟨t, e, handlerCheck_inRange s hreg nofun nofun ▸ .noFault hcause hinfo⟩

/-! ### The checks of a step (R89, whole) -/

theorem firstFailingCheck_pcOutside (cfg : Config) {s : State} (hp : 256 ≤ s.pc.toNat) :
    firstFailingCheck cfg s = some (2, s.pc) := if_pos hp

theorem firstFailingCheck_illegal {cfg : Config} {s : State} (hp : s.pc.toNat < 256)
    (ht : opcodeTable cfg (s.mem.read s.pc.toNat) = none) :
    firstFailingCheck cfg s = some (1, zext9 (s.mem.read s.pc.toNat)) := by
  simp [firstFailingCheck, ht, Nat.le_of_lt_succ hp]

section

variable {cfg : Config} {s : State} {hd : Handler} (ht : opcodeTable cfg (s.mem.read s.pc.toNat) = some hd)
include ht

theorem operandCount_of_opcodeTable : (operandCount (s.mem.read s.pc.toNat)).toNat = operandNumber hd := by
  rw [(opcodeTable_some ht).1, operandCount_opcode]

/-- The first operand byte past memory is at address 256, whichever operand it is. -/
theorem firstFailingCheck_operandOutside (hp : s.pc.toNat < 256) (hpast : 256 ≤ s.pc.toNat + operandNumber hd) :
    firstFailingCheck cfg s = some (2, 256) := by
  have h2 := operandNumber_le_two hd
  simp only [firstFailingCheck, ht, operandCount_of_opcodeTable ht]
  rw [if_neg (by omega)]
  split
  · rw [show s.pc.toNat + 1 = 256 by omega]; rfl
  · rw [if_pos (by omega), show s.pc.toNat + 2 = 256 by omega]; rfl

theorem firstFailingCheck_fetched (hfit : s.pc.toNat + operandNumber hd < 256) :
    firstFailingCheck cfg s = handlerCheck (hd.instr (s.mem.read (s.pc.toNat + 1)) (s.mem.read (s.pc.toNat + 2))) s := by
  simp only [firstFailingCheck, ht, operandCount_of_opcodeTable ht]
  rw [if_neg (by omega), if_neg (by omega), if_neg (by omega)]

end

/-- A step of the running block takes the first failing check, in the order the fetch and the handler make the checks. -/
theorem stepWith_checkTaken (cfg : Config) {s : State} (hrun : s.Running) :
    ∃ t, stepWith cfg s = .next t ∧ CheckTaken s (firstFailingCheck cfg s) t := by
  rcases Nat.lt_or_ge s.pc.toNat 256 with hp | hp
  swap
  · rw [firstFailingCheck_pcOutside cfg hp]
    exact ⟨_, stepWith_of_fetch_error hrun (fetch_pcOutside cfg hp), outOfBounds_addr s.pc ▸ .fault ⟨.outOfBounds, s.pc⟩ s.latch⟩
  rcases ht : opcodeTable cfg (s.mem.read s.pc.toNat) with _ | hd
  · obtain ⟨l, hf⟩ := fetch_illegal hp ht
    rw [firstFailingCheck_illegal hp ht]
    exact ⟨_, stepWith_of_fetch_error hrun hf, .fault (illegalInstruction _) l⟩
  rcases Nat.lt_or_ge (s.pc.toNat + operandNumber hd) 256 with hfit | hpast
  · obtain ⟨t, e, hc⟩ := exec_checkTaken
      (hd.instr (s.mem.read (s.pc.toNat + 1)) (s.mem.read (s.pc.toNat + 2))) (s.setLatch (latchesOf _ s.latch))
      (by rwa [operands_length, instr_handler])
    rw [firstFailingCheck_fetched ht hfit]
    exact ⟨t, (stepWith_of_fetch_ok hrun (fetch_fetched ht hfit)).trans e, hc.of_setLatch⟩
  · obtain ⟨l, hf⟩ := fetch_operandOutside ht hp hpast
    rw [firstFailingCheck_operandOutside ht hp hpast]
    exact ⟨_, stepWith_of_fetch_error hrun hf, .fault (outOfBounds (256 : Addr)) l⟩

/-- Settles O45: what the step takes of the first failing check, and of none. -/
theorem theFirstFailingCheckIsTheFaultTaken : Obligations.TheFirstFailingCheckIsTheFaultTaken := by
  intro cfg s hrun
  obtain ⟨t, e, hc⟩ := stepWith_checkTaken cfg hrun
  exact ⟨t, e, fun code info hfail => (hfail ▸ hc).precise, fun hnone => (hnone ▸ hc).status_kept⟩

/-- Settles O46: a step that ends with a fault had a failing check, or the cause would still be NONE, and a halted block stays as it
is. -/
theorem faultsArePreciseAndTerminal : Obligations.FaultsArePreciseAndTerminal := by
  intro cfg s t hrun hs e hfault
  obtain ⟨t', e', hfails, hnone⟩ := theFirstFailingCheckIsTheFaultTaken cfg s hrun
  obtain rfl : t = t' := Host.Outcome.next.inj (e.symm.trans e')
  rcases hcheck : firstFailingCheck cfg s with _ | ⟨code, info⟩
  · exact absurd ((hnone hcheck).1.trans hs) hfault
  · obtain ⟨rfl, rfl, hhalted, hkept⟩ := hfails code info hcheck
    exact ⟨hhalted, rfl, hkept, fun cfg' k => runWith_halted cfg' hhalted k⟩

end Sys2Proof.Machine
end

section
/-! PROOFS. Reset, load and halting (70_reset_and_hazards.md R97, R98, R101): what a load does to the state and to memory, and which
instruction halts the running block. -/

namespace Sys2Proof.Machine

open Sys2Proof.Laws

/-! ### The step (R101) -/

/-- Settles O44: the halted block answers itself, and the running block the outcome of its checks. -/
theorem stepAlwaysAnswersANextState : Obligations.StepAlwaysAnswersANextState := by
  intro cfg s
  cases hrun : s.halted with
  | true => exact ⟨s, stepWith_halted cfg hrun⟩
  | false =>
    obtain ⟨t, e, -⟩ := stepWith_checkTaken cfg hrun
    exact ⟨t, e⟩

/-- Of all effects of an instruction at a running block, HLT's alone is a normal halt: a fault sets FAULT_CAUSE, and nothing else
sets HALTED. -/
theorem ExecEffect.eq_hlt {i : Instr} {s t : State} (ht : ExecEffect s i t) (hrun : s.Running) (hhalt : t.HaltedNormally) :
    i = .hlt := by
  obtain ⟨hhalted, hnone⟩ := hhalt
  cases ht with
  | badIndex => exact absurd hnone (takeFault_faultCause_ne_zero _ s)
  | zeroDivisor => exact absurd hnone (takeFault_faultCause_ne_zero _ s)
  | returnOutside => exact absurd hnone (takeFault_faultCause_ne_zero _ s)
  | halt => rfl
  | _ => simp [hrun] at hhalted

/-- A fetched instruction stands at `pc` with its opcode. -/
theorem FetchCases.opcode_eq {cfg : Config} {s u : State} {i : Instr} (hf : FetchCases cfg s (u, .ok i)) :
    s.mem.read s.pc.toNat = i.handler.opcode := by
  cases hf with
  | fetched hd ht _ _ hi => rw [hi, instr_handler, (opcodeTable_some ht).1]

/-- A step that ends in a normal halt fetched HLT. -/
theorem stepWith_haltedNormally {cfg : Config} {s t : State} (hrun : s.Running) (e : stepWith cfg s = .next t)
    (hhalt : t.HaltedNormally) : s.pc.toNat < 256 ∧ s.mem.read s.pc.toNat = Handler.hlt.opcode := by
  have hc := fetch_cases cfg s
  rcases stepWith_running cfg hrun with ⟨u, f, -, hstep⟩ | ⟨u, i, hf, hstep⟩ <;> rw [hstep] at e
  · cases e
    exact absurd hhalt.2 (takeFault_faultCause_ne_zero f u)
  · rw [hf] at hc
    obtain ⟨rfl, hp⟩ := hc.fetched_eq
    obtain rfl := (exec_next_effect e).eq_hlt hrun hhalt
    exact ⟨hp, hc.opcode_eq⟩

/-- A HLT at `pc` is run: it needs no operand byte, and every parameter has it. -/
theorem stepWith_hlt (cfg : Config) {s : State} (hrun : s.Running) (hp : s.pc.toNat < 256)
    (hread : s.mem.read s.pc.toNat = Handler.hlt.opcode) : ∃ l, stepWith cfg s = exec .hlt (s.setLatch l) := by
  have ht : opcodeTable cfg (s.mem.read s.pc.toNat) = some .hlt := by
    rw [hread]
    exact opcodeTable_opcode (i := .hlt) rfl
  exact ⟨_, stepWith_of_fetch_ok hrun (fetch_fetched ht hp)⟩

/-- Settles O48: a normal halt fetched HLT, a fault halts by O46, and HLT halts without touching FAULT_CAUSE. -/
theorem onlyHltOrAFaultHalts : Obligations.OnlyHltOrAFaultHalts := by
  intro cfg s t hrun hs e
  refine ⟨stepWith_haltedNormally hrun e, fun hfault => (faultsArePreciseAndTerminal cfg s t hrun hs e hfault).1,
    fun hp hread => ?_⟩
  obtain ⟨l, hstep⟩ := stepWith_hlt cfg hrun hp hread
  rw [hstep, exec_hlt] at e
  cases e
  exact ⟨rfl, hs⟩

/-! ### Reset (R97) -/

/-- Settles O50: the reset value field by field; a halted block keeps its state, and so HALTED, over any run. -/
theorem resetStateIsTheSpecs : Obligations.ResetStateIsTheSpecs := by
  refine ⟨by decide, rfl, rfl, rfl, rfl, rfl, Memory.read_nil, rfl, fun cfg k s hhalted => ?_⟩
  rw [runWith_halted cfg hhalted]
  exact hhalted

theorem State.reset_inv : State.reset.Inv where
  mem := State.reset_mem_wf
  pc := Nat.zero_le 258
  flags := by decide
  status := .inl ⟨rfl, rfl⟩
  fault := by decide

/-! ### The image in memory (R98) -/

/-- The bytes outside the image are kept. -/
theorem read_writeImage_outside (m : Memory) {k x : Nat} (l : List Int) (hx : x < k ∨ k + l.length ≤ x) :
    (writeImage m k l).read x = m.read x := by
  induction l generalizing m k with
  | nil => rfl
  | cons v vs ih =>
    rw [List.length_cons] at hx
    have hne : x ≠ k := by omega
    rw [writeImage, ih _ (by omega), Memory.read_write, if_neg hne]

/-- Each element of the image stands at its address: the writes after it go to higher ones. -/
theorem read_writeImage (m : Memory) (k : Nat) {l : List Int} {j : Nat} (hj : j < l.length) :
    (writeImage m k l).read (k + j) = BitVec.ofInt 8 l[j] := by
  induction l generalizing m k j with
  | nil => cases hj
  | cons v vs ih =>
    cases j with
    | zero => rw [Nat.add_zero, writeImage, read_writeImage_outside _ vs (.inl k.lt_add_one), Memory.read_write, if_pos rfl, List.getElem_cons_zero]
    | succ j =>
      have hshift : k + (j + 1) = k + 1 + j := by omega
      rw [hshift]
      exact ih _ _ (Nat.lt_of_succ_lt_succ hj)

theorem ofInt_byte_toNat {v : Int} (h0 : 0 ≤ v) (h255 : v ≤ 255) : ((BitVec.ofInt 8 v).toNat : Int) = v := by
  rw [BitVec.toNat_ofInt]
  omega

/-! ### The load (R98) -/

theorem load_none (s : State) : load none s = s.takeFault (loadFailure 1) := rfl

theorem load_tooLong {l : List Int} (s : State) (h : 256 < l.length) : load (some l) s = s.takeFault (loadFailure 2) := if_pos h

theorem load_outOfRange {l : List Int} (s : State) (hlen : l.length ≤ 256) (h : ∃ v ∈ l, v < 0 ∨ 255 < v) :
    load (some l) s = s.takeFault (loadFailure 3) := by
  have hany : l.any (fun v => v < 0 || 255 < v) = true := by simpa using h
  rw [load, if_neg (Nat.not_lt.mpr hlen), if_pos hany]

theorem load_image {l : List Int} (s : State) (hlen : l.length ≤ 256) (h : ∀ v ∈ l, 0 ≤ v ∧ v ≤ 255) :
    load (some l) s = s.setMem (writeImage s.mem 0 l) := by
  have hany : ¬ l.any (fun v => v < 0 || 255 < v) = true := by simpa using h
  rw [load, if_neg (Nat.not_lt.mpr hlen), if_neg hany]
  rfl

/-- Everything a load can do: take one of its three failures, or write an image that memory can hold. -/
theorem load_cases (img : Option (List Int)) (s : State) :
    (∃ k : Addr, 1 ≤ k.toNat ∧ k.toNat ≤ 3 ∧ load img s = s.takeFault (loadFailure k)) ∨
    (∃ l : List Int, l.length ≤ 256 ∧ load img s = s.setMem (writeImage s.mem 0 l)) := by
  rcases img with _ | l
  · exact .inl ⟨1, by decide, by decide, load_none s⟩
  rcases Nat.lt_or_ge 256 l.length with hlong | hlen
  · exact .inl ⟨2, by decide, by decide, load_tooLong s hlong⟩
  by_cases hbad : ∃ v ∈ l, v < 0 ∨ 255 < v
  · exact .inl ⟨3, by decide, by decide, load_outOfRange s hlen hbad⟩
  · exact .inr ⟨l, hlen, load_image s hlen (by simpa using hbad)⟩

/-- A load that leaves the cause LoadFailure where it was not has failed, and so has halted the block. -/
theorem load_halted_of_loadFailure {img : Option (List Int)} {s : State} (hfail : (load img s).faultCause = 5)
    (hs : s.faultCause ≠ 5) : (load img s).halted = true := by
  rcases load_cases img s with ⟨k, -, -, e⟩ | ⟨l, -, e⟩ <;> rw [e] at hfail ⊢
  · rfl
  · exact absurd hfail hs

/-- After an empty image the byte at `pc` is 0, which has no handler. -/
theorem stepWith_boot_empty (cfg : Config) :
    ∃ t, stepWith cfg (boot (some [])) = .next t ∧ t.faultCause = 1 ∧ t.faultInfo = 0 ∧ t.pc = 0 ∧ t.halted = true := by
  obtain ⟨-, -, -, raises⟩ := bytesWithoutHandlerRaiseIllegalInstruction cfg
  obtain ⟨t, e, hhalted, hcause, hinfo, hkept⟩ := raises (boot (some [])) rfl (by decide) rfl
  exact ⟨t, e, hcause, hinfo, hkept.pc, hhalted⟩

/-- Settles O51: an equation of `load` for each of its four ends, and what memory reads after the image is written. -/
theorem loadStoresTheImageOrFails : Obligations.LoadStoresTheImageOrFails := by
  refine ⟨load_none, fun img s => load_tooLong s, fun img s => load_outOfRange s, fun img s hlen hbytes => ?_,
    fun img s cfg k hfail hs => runWith_halted cfg (load_halted_of_loadFailure hfail hs) k, stepWith_boot_empty⟩
  rw [load_image s hlen hbytes]
  refine ⟨fun k hk => ?_, fun k hk => ?_, rfl⟩
  · obtain ⟨h0, h255⟩ := hbytes img[k] (List.getElem_mem hk)
    have hread : (writeImage s.mem 0 img).read k = BitVec.ofInt 8 img[k] := by
      rw [← read_writeImage s.mem 0 hk, Nat.zero_add]
    change (((writeImage s.mem 0 img).read k).toNat : Int) = img[k]
    rw [hread, ofInt_byte_toNat h0 h255]
  · exact read_writeImage_outside s.mem img (.inr (by omega))

/-! ### The invariant after a load -/

theorem loadFailure_legal {k : Addr} (h1 : 1 ≤ k.toNat) (h3 : k.toNat ≤ 3) : (loadFailure k).Legal :=
  fun _ => .inr (.inr (.inr (.inr (.inr ⟨rfl, h1, h3⟩))))

theorem State.Inv.setMem {s : State} (hs : s.Inv) {m : Memory} (hm : m.wf = true) : (s.setMem m).Inv :=
  ⟨hm, hs.pc, hs.flags, hs.status, hs.fault⟩

/-- Settles O52: a load takes a legal fault, or writes an image that leaves memory canonical. -/
theorem resetAndLoadHaveTheInvariant : Obligations.ResetAndLoadHaveTheInvariant := by
  refine ⟨State.reset_inv, fun img s hs => ?_⟩
  rcases load_cases img s with ⟨k, h1, h3, e⟩ | ⟨l, hlen, e⟩ <;> rw [e]
  · exact hs.takeFault (loadFailure_legal h1 h3)
  · exact hs.setMem (Memory.wf_writeImage hs.mem 0 l (by omega))

end Sys2Proof.Machine
end
